-- ==== Sys2Proof/Word.lean ====
section
/-! DEFINITION. The word types of the BIP39 codec block: bytes, the 32-bit host data path, location addresses,
vocabulary words. Widths and notation are 00_scope.md section 6 and 20_memory.md R40. -/

namespace Sys2Proof

/-- A byte, 8 bits (00_scope.md section 6). -/
abbrev Byte := BitVec 8

/-- A value of the 32-bit host data path (20_memory.md R40); also a SHA-256 word (R95 to R100). -/
abbrev Word32 := BitVec 32

/-- A 16-bit location address (20_memory.md R40). -/
abbrev Addr := BitVec 16

/-- A vocabulary word: an uninterpreted byte string (30_encoding.md R68). -/
abbrev VWord := List Byte

end Sys2Proof
end

