-- ==== Sys2Proof/Config.lean ====
section
/-! DEFINITION. The configuration record of 00_scope.md R5: the fixed values, the open parameters, the reference
instance and the test vocabulary `TV` of 95_test_vectors.md section 0. The configuration is an argument of the model
(R5, R8): `Params` stands in every state and no step changes it; the word list is the operand of reset (R170). -/

namespace Sys2Proof

/-- `N_VOCAB` (R5, fixed). -/
def nVocab : Nat := 2048

/-- `ENT_LENS` in bytes (R5, fixed). -/
def entLens : List Nat := [16, 20, 24, 28, 32]

/-- `WORD_COUNTS` (R5, fixed). -/
def wordCounts : List Nat := [12, 15, 18, 21, 24]

/-- `ENT_CAP`, bytes of each entropy buffer (R5, fixed). -/
def entCap : Nat := 32

/-- `MN_CAP`, word slots of the mnemonic output (R5, fixed). -/
def mnCap : Nat := 24

/-- The open parameters of R5 other than the word list. `T_OP` is used by no rule and has no field (R5, R180). -/
structure Params where
  /-- `WORD_MAX`: bytes a word slot can hold. -/
  wordMax : Nat
  /-- `TXT_CAP`: bytes of the decode text buffer. -/
  txtCap : Nat
  /-- `WS`: the byte values the tokeniser treats as whitespace. -/
  ws : List Byte
  deriving DecidableEq, Repr

/-- The configuration record of R5: the parameters and `VOCAB_SRC`, a finite list of byte strings of any length. -/
structure Config where
  params : Params
  /-- `VOCAB_SRC`, the ordered word list the external loader supplies at reset. -/
  vocabSrc : List VWord
  deriving DecidableEq, Repr

/-- The default `WS` of R5: tab, line feed, vertical tab, form feed, carriage return, space. -/
def wsDefault : List Byte := [0x09, 0x0A, 0x0B, 0x0C, 0x0D, 0x20]

/-- The reference instance of R5: `WORD_MAX` = 8, `TXT_CAP` = 256, the default `WS`. -/
def Params.reference : Params := { wordMax := 8, txtCap := 256, ws := wsDefault }

/-- The 24 entries of 95_test_vectors.md V-P1, as (index, ASCII bytes). -/
def pinnedWords : List (Nat × VWord) :=
  [(0, [0x61, 0x62, 0x61, 0x6E, 0x64, 0x6F, 0x6E]),      -- abandon
   (3, [0x61, 0x62, 0x6F, 0x75, 0x74]),                  -- about
   (421, [0x63, 0x72, 0x75, 0x69, 0x73, 0x65]),          -- cruise
   (433, [0x63, 0x75, 0x72, 0x74, 0x61, 0x69, 0x6E]),    -- curtain
   (535, [0x64, 0x72, 0x69, 0x6C, 0x6C]),                -- drill
   (567, [0x65, 0x69, 0x67, 0x68, 0x74]),                -- eight
   (570, [0x65, 0x6C, 0x64, 0x65, 0x72]),                -- elder
   (685, [0x66, 0x69, 0x62, 0x65, 0x72])] ++             -- fiber
  [(810, [0x67, 0x72, 0x61, 0x62]),                      -- grab
   (811, [0x67, 0x72, 0x61, 0x63, 0x65]),                -- grace
   (1019, [0x6C, 0x65, 0x67, 0x61, 0x6C]),               -- legal
   (1268, [0x6F, 0x7A, 0x6F, 0x6E, 0x65]),               -- ozone
   (1313, [0x70, 0x69, 0x63, 0x6E, 0x69, 0x63]),         -- picnic
   (1385, [0x70, 0x75, 0x64, 0x64, 0x69, 0x6E, 0x67]),   -- pudding
   (1533, [0x73, 0x61, 0x75, 0x73, 0x61, 0x67, 0x65]),   -- sausage
   (1790, [0x74, 0x68, 0x61, 0x6E, 0x6B])] ++            -- thank
  [(1919, [0x75, 0x73, 0x65, 0x66, 0x75, 0x6C]),         -- useful
   (1983, [0x77, 0x61, 0x76, 0x65]),                     -- wave
   (2015, [0x77, 0x69, 0x6E, 0x6E, 0x65, 0x72]),         -- winner
   (2031, [0x77, 0x6F, 0x72, 0x74, 0x68]),               -- worth
   (2037, [0x77, 0x72, 0x6F, 0x6E, 0x67]),               -- wrong
   (2039, [0x79, 0x65, 0x61, 0x72]),                     -- year
   (2040, [0x79, 0x65, 0x6C, 0x6C, 0x6F, 0x77]),         -- yellow
   (2047, [0x7A, 0x6F, 0x6F])]                           -- zoo

/-- Digit `d` of the decimal form, as an ASCII byte. -/
def digitByte (d : Nat) : Byte := BitVec.ofNat 8 (0x30 + d % 10)

/-- Entry `v` of `TV` (95_test_vectors.md section 0): the pinned word, else `w` and `v` as four decimal digits. -/
def testWord (v : Nat) : VWord :=
  match pinnedWords.lookup v with
  | some w => w
  | none => [0x77, digitByte (v / 1000), digitByte (v / 100), digitByte (v / 10), digitByte v]

/-- The test vocabulary `TV` (95_test_vectors.md section 0, decision D35): not the real word list. -/
def testVocabulary : List VWord := (List.range nVocab).map testWord

/-- DESIGN CHOICE (log 4): the configuration `State.reset` is the reset state of. `VOCAB_SRC` is OPEN in the spec;
statements about reset quantify over every configuration and use `State.resetOf`. -/
def Config.reference : Config := { params := Params.reference, vocabSrc := testVocabulary }

end Sys2Proof
end

