-- ==== Sys2Proof/Syntax.lean ====
section
/-! DEFINITION. The whole instruction list of the block (44_commands.md R147, opcode_table.json): three command words
and two host transactions, and the two encoded forms they travel in (30_encoding.md R60, R62). -/

namespace Sys2Proof

/-- One constructor per row of opcode_table.json. The commands have no operand field (R62): their operands are the
input registers. `wr` and `rd` carry the absolute location address (R147). -/
inductive Instr where
  /-- `NOP`, command word 0 (44_commands.md R140). -/
  | nop
  /-- `ENCODE`, command word 1 (44_commands.md R141, 42_encode.md R111). -/
  | encode
  /-- `DECODE`, command word 2 (44_commands.md R141, 43_decode.md R125). -/
  | decode
  /-- `WR addr, data`, the host write transaction (44_commands.md R145). -/
  | wr (addr : Addr) (data : Word32)
  /-- `RD addr`, the host read transaction (44_commands.md R146). -/
  | rd (addr : Addr)
  deriving DecidableEq, Repr

/-- The two formats of opcode_table.json: `CMD`, the 32-bit data of a `WR` to `CMD` (R62), and `HOST`, the 49-bit
transaction record (R60). -/
inductive Code where
  | cmd (w : Word32)
  | host (t : BitVec 49)
  deriving DecidableEq, Repr

/-- Why a code stands for no instruction. -/
inductive DecodeError where
  /-- A command word other than 0, 1, 2 (R64). -/
  | reservedCommand
  /-- A record with `w` = 0 whose data field is not 0 (R60: "for RD must be 0 in the record"). -/
  | readDataNotZero
  deriving DecidableEq, Repr

end Sys2Proof
end

