-- ==== Sys2Proof/WellFormed.lean ====
section
/-! DEFINITION. Well-formed configurations (00_scope.md R6) and well-formed instructions. -/

namespace Sys2Proof

/-- R6 (b), (c), (d): the conditions on the parameters alone. -/
abbrev Params.Wf (p : Params) : Prop :=
  1 ≤ p.wordMax ∧ p.wordMax ≤ 31 ∧ 24 * p.wordMax + 23 ≤ p.txtCap ∧ p.txtCap ≤ 4096 ∧ (0x20 : Byte) ∈ p.ws

/-- R6 (a): every entry of the offered word list fits a word slot. The count of entries is not part of
well-formedness (R6). -/
abbrev Params.Fits (p : Params) (src : List VWord) : Prop :=
  ∀ w ∈ src, w.length ≤ p.wordMax

/-- R6, all four conditions. -/
abbrev Config.Wf (c : Config) : Prop :=
  c.params.Wf ∧ c.params.Fits c.vocabSrc

/-- Every term of `Instr` is well-formed: the fields have exactly the widths of the record (R60), every 16-bit address
is a well-formed address (20_memory.md R52), and every 32-bit value may be offered (R44). -/
abbrev Instr.Wf : Instr → Prop
  | .nop => True
  | .encode => True
  | .decode => True
  | .wr _ _ => True
  | .rd _ => True

end Sys2Proof
end

