-- ==== Sys2Proof/Decode.lean ====
section
/-! DEFINITION. Decoding, total on any 32-bit command word and any 49-bit record, and after it the encoder
(30_encoding.md R60, R62 to R64; opcode_table.json). -/

namespace Sys2Proof

/-- R63: the decoder matches the full 32-bit command word; every other word is reserved (R64). -/
def decodeCmd (w : Word32) : Except DecodeError Instr :=
  if w = 0x00000000#32 then .ok .nop
  else if w = 0x00000001#32 then .ok .encode
  else if w = 0x00000002#32 then .ok .decode
  else .error .reservedCommand

/-- R60: bit 48 is `w`, bits 47:32 the address, bits 31:0 the data, which is 0 in the record of a `RD`. -/
def decodeHost (t : BitVec 49) : Except DecodeError Instr :=
  if t.getLsbD 48 then .ok (.wr (t.extractLsb' 32 16) (t.extractLsb' 0 32))
  else if t.extractLsb' 0 32 = 0#32 then .ok (.rd (t.extractLsb' 32 16))
  else .error .readDataNotZero

/-- The decoder, by format. -/
def decode : Code → Except DecodeError Instr
  | .cmd w => decodeCmd w
  | .host t => decodeHost t

/-- R60: the record with the three fields. -/
def record (w : BitVec 1) (addr : Addr) (data : Word32) : BitVec 49 :=
  w ++ (addr ++ data)

/-- The encoder, from R63 (the three command codes) and R60 (the record). -/
def encode : Instr → Code
  | .nop => .cmd 0x00000000#32
  | .encode => .cmd 0x00000001#32
  | .decode => .cmd 0x00000002#32
  | .wr addr data => .host (record 1#1 addr data)
  | .rd addr => .host (record 0#1 addr 0#32)

/-- The record by which a host issues a code: a command word travels as `WR 0x0000, word` (R62, R70). -/
def Code.asRecord : Code → BitVec 49
  | .cmd w => record 1#1 0x0000#16 w
  | .host t => t

/-- The width in bits of a code's format. -/
def Code.nbits : Code → Nat
  | .cmd _ => 32
  | .host _ => 49

/-- The code's bits as one number, bit 0 the least significant. -/
def Code.bits : Code → Nat
  | .cmd w => w.toNat
  | .host t => t.toNat

/-- The instruction's row of opcode_table.json as (format width, mask, match): the bits under the mask must equal the
match. The `WR` and `RD` rows are the table's patterns of 49 bits, `a` and `d` free. -/
def Instr.row : Instr → Nat × Nat × Nat
  | .nop => (32, 0xFFFFFFFF, 0x00000000)
  | .encode => (32, 0xFFFFFFFF, 0x00000001)
  | .decode => (32, 0xFFFFFFFF, 0x00000002)
  | .wr _ _ => (49, 0x1000000000000, 0x1000000000000)
  | .rd _ => (49, 0x10000FFFFFFFF, 0x0000000000000)

/-- The code a table word stands for: up to 32 bits it is a command word, above that a 49-bit record (log 12). -/
def tableCode (nbits w : Nat) : Code :=
  if nbits ≤ 32 then .cmd (BitVec.ofNat 32 w) else .host (BitVec.ofNat 49 w)

/-- The instruction the decoder reads from a table word. A word with a bit above its format's width is no code. -/
def decodeTableWord (nbits w : Nat) : Option Instr :=
  if w < 2 ^ (tableCode nbits w).nbits then (decode (tableCode nbits w)).toOption else none

end Sys2Proof
end

