-- ==== Sys2Proof/Machine/State.lean ====
section
/-! DEFINITION. The state of the block as plain data (10_state.md R10), the reasons a step can stop, the events the
outside world offers, and the state after reset (R31). -/

namespace Sys2Proof.Machine

/-- Why the machine stops with a fault. The block itself has none (93_implementation_defined.md section 1: "Nothing in
this block maps to fault, stuck or any value in a reachable state"). -/
inductive Fault where
  /-- Raised by the engine's completion step when `BUSY` = 1 and `OP` is neither 1 nor 2. R143 gives that step nothing
  to do, and no run reaches such a state (R30 (a), U13). Safe: a stop (log 11). -/
  | engineWithoutOperation
  deriving DecidableEq, Repr

/-- Why a step has no meaning. -/
inductive Refusal where
  /-- Raised by an arm of `exec` whose instruction has no meaning yet; no arm does. Safe: a stop. -/
  | notModelled (mnemonic : String)
  /-- Raised by the step on a 49-bit record that is no transaction: `w` = 0 with a data field other than 0 (R60).
  Safe: a stop (log 9). -/
  | malformedRecord
  /-- Raised by every step of a block whose configuration is ill-formed, and by a reset event that presents a word list
  with an entry longer than `WORD_MAX` (R6: "A model refuses an ill-formed configuration"). Safe: a stop (log 10). -/
  | illFormedConfiguration
  deriving DecidableEq, Repr

/-- What the outside world does next (00_scope.md R7). -/
inductive Event where
  /-- The host issues the transaction record `t` (R60). -/
  | host (t : BitVec 49)
  /-- The engine takes its turn: the completion step, if it is enabled (R143). -/
  | engine
  /-- The reset input is asserted with `VOCAB_SRC` = `src` presented (R170). -/
  | reset (src : List VWord)
  deriving DecidableEq, Repr

/-- The six failure kinds of R150, in the order of their codes 1 to 6. -/
inductive ErrKind where
  | invalidVocabularySize
  | invalidEntropyLength
  | invalidWordCount
  | unknownWord
  | checksumMismatch
  | textTooLong
  deriving DecidableEq, Repr

/-- What `raise K(info, off, len)` carries (R152). -/
structure Failure where
  kind : ErrKind
  info : Nat
  off : Nat
  len : Nat
  deriving DecidableEq, Repr

/-- The byte locations of the address space (R41: `EIN`, `EOUT`, `MW_B`, `TXT`) as a list of (address, byte) pairs in
one canonical form: addresses strictly rising, no byte 0 listed. An unlisted address reads 0, the reset value of every
buffer byte (R31). -/
abbrev Memory := List Host.Cell

/-- The block's state (10_state.md R10), with four fields of the model's own at the two ends: `params` and `srcFits`,
the configuration (R5, R6), and `rdata` and `pending`, the host's side of the port. -/
structure State where
  /-- The open parameters of R5; constant. -/
  params : Params
  /-- Whether the word list the last reset presented meets R6 (a), whatever its count: `VF` holds that list only when it
  has 2048 entries (R80). Written by reset alone. -/
  srcFits : Bool
  /-- `STATUS.BUSY` (R12 bit 0). -/
  busy : Bool
  /-- `STATUS.DONE` (R12 bit 1). -/
  done : Bool
  /-- `STATUS.ERRF` (R12 bit 2). -/
  errf : Bool
  /-- `STATUS.VOK` (R12 bit 3). -/
  vok : Bool
  /-- `ERR` (R13). -/
  err : BitVec 3
  /-- `ERR_INFO` (R14). -/
  errInfo : BitVec 32
  /-- `ERR_OFF` (R15). -/
  errOff : BitVec 16
  /-- `ERR_LEN` (R15). -/
  errLen : BitVec 16
  /-- `EIN_LEN` (R16). -/
  einLen : BitVec 16
  /-- `TXT_LEN` (R17). -/
  txtLen : BitVec 16
  /-- `EOUT_LEN` (R18). -/
  eoutLen : BitVec 6
  /-- `MCOUNT` (R19). -/
  mcount : BitVec 5
  /-- `MIDX[0..23]` (R22). -/
  midx : Vector (BitVec 11) 24
  /-- `MW_LEN[0..23]` (R23). -/
  mwLen : Vector (BitVec 5) 24
  /-- `EIN` (R20), `EOUT` (R21), the bytes of the word slots `MW_B` (R23) and `TXT` (R24), at their addresses (R41). -/
  mem : Memory
  /-- `OP`, hidden (R25): 0 none, 1 ENCODE, 2 DECODE. -/
  op : BitVec 2
  /-- `VF`, hidden (R26): entry `v` is the word of index `v`; meaningful only while `vok`. `VR` (R27) is the function
  `indexOf` of it. -/
  vf : List VWord
  /-- What the last `RD` yielded to the host (R146); not block state. -/
  rdata : Word32
  /-- What the host, the engine and the reset input do next, oldest first. -/
  pending : List Event
  deriving DecidableEq, Repr

/-- The configuration the block was reset with is well-formed (R6, all four conditions). -/
abbrev State.ConfigWf (s : State) : Prop := s.params.Wf ∧ s.srcFits = true

/-- The state after reset with configuration `c`, element by element as the table of R31 gives it. `vf` without a
vocabulary is DESIGN CHOICE empty (log 5), `rdata` DESIGN CHOICE 0 (log 3), `pending` DESIGN CHOICE empty (log 1). Of an
ill-formed `c` every step is refused (R6, log 10). -/
def State.resetOf (c : Config) : State :=
  { params := c.params
    srcFits := decide (c.params.Fits c.vocabSrc)
    busy := false
    done := false
    errf := decide (c.vocabSrc.length ≠ 2048)
    vok := decide (c.vocabSrc.length = 2048)
    err := if c.vocabSrc.length = 2048 then 0 else 1
    errInfo := 0
    errOff := 0
    errLen := 0
    einLen := 0
    txtLen := 0
    eoutLen := 0
    mcount := 0
    midx := Vector.replicate 24 0
    mwLen := Vector.replicate 24 0
    mem := []
    op := 0
    vf := if c.vocabSrc.length = 2048 then c.vocabSrc else []
    rdata := 0
    pending := [] }

/-- The state after reset of the reference configuration (log 4). `srcFits` is written as the value it has
(`reset_eq_resetOf`), so that a step from here does not measure 2048 words. -/
def State.reset : State := { State.resetOf Config.reference with srcFits := true }

end Sys2Proof.Machine
end

