-- ==== Sys2Proof/Machine/Flags.lean ====
section
/-! DEFINITION. The four flags of `STATUS` (10_state.md R12, 30_encoding.md R65), what a start, a success and a failure
do to them, and the error codes (60_exceptions.md R150). -/

namespace Sys2Proof.Machine

/-- R65: `STATUS` = `zext_32(VOK·8 + ERRF·4 + DONE·2 + BUSY)`. -/
def State.statusWord (s : State) : Word32 :=
  BitVec.ofNat 32 (s.vok.toNat * 8 + s.errf.toNat * 4 + s.done.toNat * 2 + s.busy.toNat)

/-- The codes of R150, in the source's order, `TextTooLong` last. -/
def ErrKind.code : ErrKind → BitVec 3
  | .invalidVocabularySize => 1
  | .invalidEntropyLength => 2
  | .invalidWordCount => 3
  | .unknownWord => 4
  | .checksumMismatch => 5
  | .textTooLong => 6

/-- R141: a start of operation `c` writes `OP`, `BUSY`, `DONE` and nothing else. -/
def start (c : BitVec 2) (s : State) : State :=
  { s with op := c, busy := true, done := false }

/-- The report of a success (R111, R125): the four error registers 0, `ERRF` 0, `BUSY` 0, `DONE` 1, `OP` 0. -/
def reportSuccess (s : State) : State :=
  { s with err := 0, errInfo := 0, errOff := 0, errLen := 0,
           errf := false, busy := false, done := true, op := 0 }

/-- The report of a failure (R152): its code and information, `ERRF` 1, `BUSY` 0, `DONE` 1, `OP` 0. -/
def reportFailure (f : Failure) (s : State) : State :=
  { s with err := f.kind.code, errInfo := BitVec.ofNat 32 f.info,
           errOff := BitVec.ofNat 16 f.off, errLen := BitVec.ofNat 16 f.len,
           errf := true, busy := false, done := true, op := 0 }

end Sys2Proof.Machine
end

