-- ==== Sys2Proof/Machine/Operands.lean ====
section
/-! DEFINITION. The one operand form: an absolute 16-bit location address (44_commands.md R147) and the location it
names (20_memory.md R41), with the addresses of the byte locations. -/

namespace Sys2Proof.Machine

/-- What an address names (R41). Indices are within the bounds R41 gives. -/
inductive Loc where
  | cmd
  | status
  | err
  | errInfo
  | errOff
  | errLen
  | einLen
  | txtLen
  | eoutLen
  | mcount
  | ein (i : Nat)
  | eout (i : Nat)
  | midx (i : Fin 24)
  | mwLen (i : Fin 24)
  | mwB (i : Nat) (j : Nat)
  | txt (k : Nat)
  | unmapped
  deriving DecidableEq, Repr

/-- First location of `EIN` (R41). -/
def einBase : Nat := 0x0020

/-- First location of `EOUT` (R41). -/
def eoutBase : Nat := 0x0040

/-- First location of `MIDX` (R41). -/
def midxBase : Nat := 0x0060

/-- First location of the word-slot window, 24 slots of 32 locations (R41). -/
def slotWindow : Nat := 0x0100

/-- The location of `MW_LEN[i]` (R41); the bytes of slot `i` follow it. -/
def slotBase (i : Nat) : Nat := slotWindow + 32 * i

/-- First location of `TXT` (R41). -/
def txtBase : Nat := 0x1000

/-- The registers of R41, 0x0000 to 0x0009; the rest of the register window is unmapped. -/
def locateRegister : Nat → Loc
  | 0x0000 => .cmd
  | 0x0001 => .status
  | 0x0002 => .err
  | 0x0003 => .errInfo
  | 0x0004 => .errOff
  | 0x0005 => .errLen
  | 0x0006 => .einLen
  | 0x0007 => .txtLen
  | 0x0008 => .eoutLen
  | 0x0009 => .mcount
  | _ => .unmapped

/-- The word-slot window of R41 from its first location: slot `off / 32`, its length and then its bytes; bytes from
`WORD_MAX` on are unmapped. -/
def locateSlot (p : Params) (off : Nat) : Loc :=
  if off % 32 = 0 then .mwLen (Fin.ofNat 24 (off / 32))
  else if off % 32 - 1 < p.wordMax then .mwB (off / 32) (off % 32 - 1)
  else .unmapped

/-- The address map of R41 on the number of an address: every address not listed there is unmapped (R45). -/
def locateAt (p : Params) (a : Nat) : Loc :=
  if a < 0x0020 then locateRegister a
  else if a < 0x0040 then .ein (a - 0x0020)
  else if a < 0x0060 then .eout (a - 0x0040)
  else if a < 0x0078 then .midx (Fin.ofNat 24 (a - 0x0060))
  else if a < 0x0100 then .unmapped
  else if a < 0x0400 then locateSlot p (a - 0x0100)
  else if a < 0x1000 then .unmapped
  else if a < 0x1000 + p.txtCap then .txt (a - 0x1000)
  else .unmapped

/-- The location an address names (R41). -/
def locate (p : Params) (addr : Addr) : Loc := locateAt p addr.toNat

/-- The address at which `mem` holds a byte location; `none` for a register, `CMD` or nothing. -/
def Loc.byteAddr : Loc → Option Nat
  | .cmd | .status | .err | .errInfo | .errOff | .errLen | .einLen | .txtLen | .eoutLen | .mcount => none
  | .ein i => some (einBase + i)
  | .eout i => some (eoutBase + i)
  | .midx _ => none
  | .mwLen _ => none
  | .mwB i j => some (slotBase i + 1 + j)
  | .txt k => some (txtBase + k)
  | .unmapped => none

/-- The locations a host write stores to (R43: "The read/write locations are exactly EIN_LEN, TXT_LEN, EIN[i] and
TXT[k]"). -/
def Loc.writable : Loc → Bool
  | .einLen | .txtLen | .ein _ | .txt _ => true
  | .cmd | .status | .err | .errInfo | .errOff | .errLen | .eoutLen | .mcount => false
  | .eout _ | .midx _ | .mwLen _ | .mwB _ _ | .unmapped => false

end Sys2Proof.Machine
end

