-- ==== Sys2Proof/Machine/Ops.lean ====
section
/-! DEFINITION. The shared operations: memory in canonical form, the two access primitives `MemRead` and `MemWrite`
(20_memory.md R42, R43), the command decode behind a write of `CMD` (30_encoding.md R63), and the failure step `raise`
(60_exceptions.md R152), which is what this block has in place of taking an exception. There is no return from one
(R155). -/

namespace Sys2Proof.Machine

/-- The byte at an address; an unlisted address reads 0 (R31). -/
def Memory.read : Memory → Nat → Byte
  | [], _ => 0
  | c :: m, a => if c.1 = a then c.2 else Memory.read m a

/-- Store one byte, keeping the canonical form: writing 0 removes the entry. -/
def Memory.write : Memory → Nat → Byte → Memory
  | [], a, b => if b = 0 then [] else [(a, b)]
  | c :: m, a, b =>
    if a < c.1 then (if b = 0 then c :: m else (a, b) :: c :: m)
    else if a = c.1 then (if b = 0 then m else (a, b) :: m)
    else c :: Memory.write m a b

/-- Store a byte string at consecutive addresses, the first at `base`. -/
def Memory.writeBytes : Memory → Nat → List Byte → Memory
  | m, _, [] => m
  | m, base, b :: bs => Memory.writeBytes (Memory.write m base b) (base + 1) bs

/-- The `n` bytes at consecutive addresses from `base`. -/
def Memory.readBytes (m : Memory) (base n : Nat) : List Byte :=
  (List.range n).map fun i => Memory.read m (base + i)

/-- Set the `n` bytes from `base` to 0. -/
def Memory.clear (m : Memory) (base n : Nat) : Memory :=
  m.filter fun c => !(decide (base ≤ c.1) && decide (c.1 < base + n))

/-- Addresses strictly rise from `lo` and no byte is 0. -/
def Memory.wfFrom : Nat → Memory → Bool
  | _, [] => true
  | lo, c :: m => decide (lo ≤ c.1) && decide (c.2 ≠ 0) && Memory.wfFrom (c.1 + 1) m

/-- The canonical form. -/
def Memory.wf (m : Memory) : Bool := Memory.wfFrom 0 m

/-- The value of the location at `addr`, zero-extended: `MemRead(addr, 1)` (R42). `CMD` and unmapped addresses read 0
(R45, R46). -/
def memRead (s : State) (addr : Addr) : Word32 :=
  match locate s.params addr with
  | .cmd => 0
  | .status => s.statusWord
  | .err => s.err.setWidth 32
  | .errInfo => s.errInfo
  | .errOff => s.errOff.setWidth 32
  | .errLen => s.errLen.setWidth 32
  | .einLen => s.einLen.setWidth 32
  | .txtLen => s.txtLen.setWidth 32
  | .eoutLen => s.eoutLen.setWidth 32
  | .mcount => s.mcount.setWidth 32
  | .ein i => (s.mem.read (einBase + i)).setWidth 32
  | .eout i => (s.mem.read (eoutBase + i)).setWidth 32
  | .midx i => (s.midx.get i).setWidth 32
  | .mwLen i => (s.mwLen.get i).setWidth 32
  | .mwB i j => (s.mem.read (slotBase i + 1 + j)).setWidth 32
  | .txt k => (s.mem.read (txtBase + k)).setWidth 32
  | .unmapped => 0

/-- What a command word written to `CMD` does while `BUSY` = 0 (R63): 1 and 2 start an operation (R141), 0 is NOP
(R140), every other word is reserved and ignored (R144, log 7). -/
def command (c : Word32) (s : State) : State :=
  if c = 0x00000001#32 then start 1 s
  else if c = 0x00000002#32 then start 2 s
  else s

/-- `MemWrite(addr, 1, v)` (R43): nothing while `BUSY` = 1 (R47); a write of `CMD` is a command; a read/write location
stores the low bits (R44); a read-only or unmapped address ignores the write (R45, R46). -/
def memWrite (addr : Addr) (v : Word32) (s : State) : State :=
  if s.busy then s
  else match locate s.params addr with
    | .cmd => command v s
    | .einLen => { s with einLen := v.setWidth 16 }
    | .txtLen => { s with txtLen := v.setWidth 16 }
    | .ein i => { s with mem := s.mem.write (einBase + i) (v.setWidth 8) }
    | .txt k => { s with mem := s.mem.write (txtBase + k) (v.setWidth 8) }
    | .status | .err | .errInfo | .errOff | .errLen | .eoutLen | .mcount => s
    | .eout _ | .midx _ | .mwLen _ | .mwB _ _ => s
    | .unmapped => s

/-- ENCODE's outputs all 0 (R152): `MCOUNT`, every `MIDX`, `MW_LEN`, `MW_B`. Of the slot window only the bytes `MW_B`
are in `mem`. -/
def clearMnemonic (s : State) : State :=
  { s with mcount := 0, midx := Vector.replicate 24 0, mwLen := Vector.replicate 24 0,
           mem := s.mem.clear slotWindow (32 * mnCap) }

/-- DECODE's outputs all 0 (R152): `EOUT_LEN` and every `EOUT`. -/
def clearEntropy (s : State) : State :=
  { s with eoutLen := 0, mem := s.mem.clear eoutBase entCap }

/-- The outputs of the operation in progress cleared (R152): the failing command's only. -/
def clearOutputs (s : State) : State :=
  if s.op = 1 then clearMnemonic s
  else if s.op = 2 then clearEntropy s
  else s

/-- The failure step `raise K(info, off, len)` of R152, one atomic step: the failing command's outputs are cleared and
the failure is reported. Nothing is saved and nothing is redirected. -/
def raise (f : Failure) (s : State) : State :=
  reportFailure f (clearOutputs s)

end Sys2Proof.Machine
end

