-- ==== Sys2Proof/Machine/Commands.lean ====
section
/-! DEFINITION. The three commands (44_commands.md): each is a `WR` of its word to `CMD` (30_encoding.md R62), so each
is dropped while `BUSY` = 1 (20_memory.md R47). ENCODE and DECODE are the start step here (R141); their completion is
the engine's step (R143, Engine.lean). -/

namespace Sys2Proof.Machine

/-- A start issued by the host: dropped while `BUSY` = 1 (R47), the start step of R141 otherwise. -/
def issue (c : BitVec 2) (s : State) : State :=
  if s.busy then s else start c s

/-- NOP (R140): no effect, whether busy or not. -/
def execNop (s : State) : Host.Outcome State Fault Refusal := .next s

/-- ENCODE (R141 with `c` = 1); completion R111. -/
def execEncode (s : State) : Host.Outcome State Fault Refusal := .next (issue 1 s)

/-- DECODE (R141 with `c` = 2); completion R125. -/
def execDecode (s : State) : Host.Outcome State Fault Refusal := .next (issue 2 s)

end Sys2Proof.Machine
end

