-- ==== Sys2Proof/Machine/Transactions.lean ====
section
/-! DEFINITION. The two host transactions (44_commands.md R145, R146). -/

namespace Sys2Proof.Machine

/-- `WR addr, v` (R145): `MemWrite(addr, 1, v)`. -/
def execWr (addr : Addr) (v : Word32) (s : State) : Host.Outcome State Fault Refusal :=
  .next (memWrite addr v s)

/-- `RD addr` (R146): `MemRead(addr, 1)`, whose result goes to the host; no block state is written. -/
def execRd (addr : Addr) (s : State) : Host.Outcome State Fault Refusal :=
  .next { s with rdata := memRead s addr }

end Sys2Proof.Machine
end

