-- ==== Sys2Proof/Machine/Length.lean ====
section
/-! DEFINITION. Length arithmetic (41_checksum_sha256.md R90 to R93): exact, floor division, nothing wraps (R148). -/

namespace Sys2Proof.Machine

/-- R90. -/
def entropyBits (len : Nat) : Nat := 8 * len

/-- R91. -/
def checksumBits (eb : Nat) : Nat := eb / 32

/-- R92. -/
def wordCount (eb : Nat) : Nat := (eb + checksumBits eb) / 11

/-- R93: multiply, floor-divide by 32, multiply by 32. -/
def messageLengthForWordCount (n : Nat) : Nat := n * 11 / 32 * 32

end Sys2Proof.Machine
end

