-- ==== Sys2Proof/Machine/BitString.lean ====
section
/-! DEFINITION. Big-endian values, the mnemonic bit string and its 11-bit groups (30_encoding.md R66, R67, 42_encode.md
R112) and the reassembly (43_decode.md R123). All values are exact non-negative integers (R148 (b)). -/

namespace Sys2Proof.Machine

/-- `be(s)`, the big-endian value of a byte string (00_scope.md section 6). -/
def be (s : List Byte) : Nat := s.foldl (fun v b => v * 256 + b.toNat) 0

/-- The `len` bytes, most significant first, of the low `8 * len` bits of `v` (R123's `E'`). -/
def toBytes (v len : Nat) : List Byte :=
  (List.range len).map fun k => BitVec.ofNat 8 ((v >>> (8 * (len - 1 - k))) &&& 0xFF)

/-- The integer `V` of R66: `entropy || checksum`. -/
def bitString (e : List Byte) (cs c : Nat) : Nat := be e * 2 ^ cs + c

/-- Group `i` of `n` of a bit string (R67, R112). -/
def group (v n i : Nat) : Nat := (v >>> (11 * (n - 1 - i))) &&& 0x7FF

/-- The `n` groups, group 0 first. -/
def groups (v n : Nat) : List Nat := (List.range n).map (group v n)

/-- `bit(p)` of R112's second form: position `p` of `entropy || checksum`, counted from the first bit. -/
def mnemonicBit (e : List Byte) (cs c p : Nat) : Bool :=
  if p < 8 * e.length then ((e.getD (p / 8) 0).getLsbD (7 - p % 8))
  else c.testBit (cs - 1 - (p - 8 * e.length))

/-- `g_i` of R112's second form: the sum over k = 0..10 of `bit(11·i + k)` · 2^(10−k). -/
def groupOfBits (e : List Byte) (cs c i : Nat) : Nat :=
  ((List.range 11).map fun k => (mnemonicBit e cs c (11 * i + k)).toNat * 2 ^ (10 - k)).sum

/-- `Vd` of R123: the sum over i of `idx_i` · 2^(11·(n−1−i)); the first index is the most significant group. -/
def packIndices : List Nat → Nat
  | [] => 0
  | i :: rest => i * 2 ^ (11 * rest.length) + packIndices rest

/-- `E'` of R123 from the indices. -/
def reassemble (idx : List Nat) : List Byte :=
  let eb := messageLengthForWordCount idx.length
  toBytes (packIndices idx >>> (eb / 32)) (eb / 8)

/-- `emb` of R123: the embedded checksum, the low `cs` bits. -/
def embeddedChecksum (idx : List Nat) : Nat :=
  packIndices idx &&& (2 ^ (messageLengthForWordCount idx.length / 32) - 1)

end Sys2Proof.Machine
end

