-- ==== Sys2Proof/Machine/Sha256.lean ====
section
/-! DEFINITION. SHA-256 of one 64-byte block (41_checksum_sha256.md R95 to R100) and the checksum (R101). Every word is
32 bits and every addition is modulo 2^32 (R148 (d)). -/

namespace Sys2Proof.Machine

/-- `ROTR_32(x, n)` for 0 < n < 32 (00_scope.md section 6). -/
def rotr (x : Word32) (n : Nat) : Word32 := (x >>> n) ||| (x <<< (32 - n))

/-- The padded message `B` of R95: the message, 0x80, zeros, the bit length as 8 bytes big-endian. 64 bytes for a
message of at most 55 bytes; the block hashes no longer one (log 15). -/
def shaPad (msg : List Byte) : List Byte :=
  msg ++ ([0x80#8] ++ (List.replicate (55 - msg.length) 0#8 ++ toBytes (8 * msg.length) 8))

/-- The sixteen message words of R95: `W[t] = be(B[4t .. 4t+4))`. -/
def messageWords (block : List Byte) : List Word32 :=
  (List.range 16).map fun t => BitVec.ofNat 32 (be ((block.drop (4 * t)).take 4))

/-- The initial hash value `H0` of R96. -/
def shaH0 : List Word32 :=
  [0x6a09e667, 0xbb67ae85, 0x3c6ef372, 0xa54ff53a, 0x510e527f, 0x9b05688c, 0x1f83d9ab, 0x5be0cd19]

/-- The round constants `K[0..63]` of R97, row by row. -/
def shaK : List Word32 :=
  [0x428a2f98, 0x71374491, 0xb5c0fbcf, 0xe9b5dba5, 0x3956c25b, 0x59f111f1, 0x923f82a4, 0xab1c5ed5] ++
  [0xd807aa98, 0x12835b01, 0x243185be, 0x550c7dc3, 0x72be5d74, 0x80deb1fe, 0x9bdc06a7, 0xc19bf174] ++
  [0xe49b69c1, 0xefbe4786, 0x0fc19dc6, 0x240ca1cc, 0x2de92c6f, 0x4a7484aa, 0x5cb0a9dc, 0x76f988da] ++
  [0x983e5152, 0xa831c66d, 0xb00327c8, 0xbf597fc7, 0xc6e00bf3, 0xd5a79147, 0x06ca6351, 0x14292967] ++
  [0x27b70a85, 0x2e1b2138, 0x4d2c6dfc, 0x53380d13, 0x650a7354, 0x766a0abb, 0x81c2c92e, 0x92722c85] ++
  [0xa2bfe8a1, 0xa81a664b, 0xc24b8b70, 0xc76c51a3, 0xd192e819, 0xd6990624, 0xf40e3585, 0x106aa070] ++
  [0x19a4c116, 0x1e376c08, 0x2748774c, 0x34b0bcb5, 0x391c0cb3, 0x4ed8aa4a, 0x5b9cca4f, 0x682e6ff3] ++
  [0x748f82ee, 0x78a5636f, 0x84c87814, 0x8cc70208, 0x90befffa, 0xa4506ceb, 0xbef9a3f7, 0xc67178f2]

/-- `s0` of R98. -/
def smallSigma0 (x : Word32) : Word32 := rotr x 7 ^^^ rotr x 18 ^^^ (x >>> 3)

/-- `s1` of R98. -/
def smallSigma1 (x : Word32) : Word32 := rotr x 17 ^^^ rotr x 19 ^^^ (x >>> 10)

/-- `S1` of R99. -/
def bigSigma1 (e : Word32) : Word32 := rotr e 6 ^^^ rotr e 11 ^^^ rotr e 25

/-- `S0` of R99. -/
def bigSigma0 (a : Word32) : Word32 := rotr a 2 ^^^ rotr a 13 ^^^ rotr a 22

/-- `ch` of R99. -/
def shaCh (e f g : Word32) : Word32 := (e &&& f) ^^^ (~~~e &&& g)

/-- `maj` of R99. -/
def shaMaj (a b c : Word32) : Word32 := (a &&& b) ^^^ (a &&& c) ^^^ (b &&& c)

/-- The word R98 adds to a schedule held newest first, so that `W[t−k]` is entry `k − 1`. -/
def scheduleNext (w : List Word32) : Word32 :=
  w.getD 15 0 + smallSigma0 (w.getD 14 0) + w.getD 6 0 + smallSigma1 (w.getD 1 0)

/-- The schedule after `n` applications of R98, newest word first. -/
def scheduleFrom : Nat → List Word32 → List Word32
  | 0, w => w
  | n + 1, w => let w' := scheduleFrom n w; scheduleNext w' :: w'

/-- The message schedule `W[0..63]` (R95, R98). -/
def messageSchedule (block : List Byte) : List Word32 :=
  (scheduleFrom 48 (messageWords block).reverse).reverse

/-- The eight working variables of R99. -/
structure ShaVars where
  a : Word32
  b : Word32
  c : Word32
  d : Word32
  e : Word32
  f : Word32
  g : Word32
  h : Word32
  deriving DecidableEq, Repr

/-- One round of R99, with `K[t]` and `W[t]`; all eight variables at once. -/
def shaRound (v : ShaVars) (k w : Word32) : ShaVars :=
  let t1 := v.h + bigSigma1 v.e + shaCh v.e v.f v.g + k + w
  let t2 := bigSigma0 v.a + shaMaj v.a v.b v.c
  { a := t1 + t2, b := v.a, c := v.b, d := v.c, e := v.d + t1, f := v.e, g := v.f, h := v.g }

/-- R99: the rounds in order. -/
def shaRounds : ShaVars → List (Word32 × Word32) → ShaVars
  | v, [] => v
  | v, kw :: rest => shaRounds (shaRound v kw.1 kw.2) rest

/-- R99: `(a, …, h)` = `H0[0..7]` at the start. -/
def shaInit : ShaVars :=
  { a := shaH0.getD 0 0, b := shaH0.getD 1 0, c := shaH0.getD 2 0, d := shaH0.getD 3 0,
    e := shaH0.getD 4 0, f := shaH0.getD 5 0, g := shaH0.getD 6 0, h := shaH0.getD 7 0 }

/-- The working variables after the 64 rounds. -/
def shaFinal (msg : List Byte) : ShaVars :=
  shaRounds shaInit (shaK.zip (messageSchedule (shaPad msg)))

/-- The eight words `Hf` of R100. -/
def digestWords (msg : List Byte) : List Word32 :=
  let v := shaFinal msg
  List.zipWith (· + ·) shaH0 [v.a, v.b, v.c, v.d, v.e, v.f, v.g, v.h]

/-- `be32`: a word as four bytes, most significant first (R100). -/
def be32 (w : Word32) : List Byte := toBytes w.toNat 4

/-- `SHA256(M)`, 32 bytes (R100). -/
def sha256 (msg : List Byte) : List Byte :=
  (digestWords msg).flatMap be32

/-- `checksum(E)` (R101): the top `cs` bits of the first digest byte. -/
def checksum (e : List Byte) : Nat :=
  let cs := checksumBits (entropyBits e.length)
  ((sha256 e).getD 0 0).toNat >>> (8 - cs)

end Sys2Proof.Machine
end

