-- ==== Sys2Proof/Machine/Tokeniser.lean ====
section
/-! DEFINITION. The tokeniser of DECODE (43_decode.md R120) and the texts R127 says a host writes. -/

namespace Sys2Proof.Machine

/-- A token by reference: start offset and length in bytes (R120). -/
structure Token where
  off : Nat
  len : Nat
  deriving DecidableEq, Repr

/-- The scan of R120 from offset `k`; `some s` is the start of the token being read, if there is one. -/
def tokenizeFrom (ws : List Byte) : Nat → Option Nat → List Byte → List Token
  | _, none, [] => []
  | k, some s, [] => [{ off := s, len := k - s }]
  | k, none, b :: bs =>
    if b ∈ ws then tokenizeFrom ws (k + 1) none bs else tokenizeFrom ws (k + 1) (some k) bs
  | k, some s, b :: bs =>
    if b ∈ ws then { off := s, len := k - s } :: tokenizeFrom ws (k + 1) none bs
    else tokenizeFrom ws (k + 1) (some s) bs

/-- `tokenize(T, N)` of R120 on the text `T[0..N)`: the maximal runs of non-whitespace bytes, left to right. -/
def tokenize (ws : List Byte) (text : List Byte) : List Token :=
  tokenizeFrom ws 0 none text

/-- The bytes `T[s .. s+m)` of a token. -/
def Token.bytes (text : List Byte) (t : Token) : List Byte := (text.drop t.off).take t.len

/-- A text R127 (a) allows: `lead`, then each word followed by its separator. -/
def spacedText (lead : List Byte) (parts : List (VWord × List Byte)) : List Byte :=
  lead ++ parts.flatMap fun p => p.1 ++ p.2

/-- The separators of such a text are whitespace, and every one but the last has at least one byte. -/
def Separators (ws : List Byte) : List (List Byte) → Prop
  | [] => True
  | [last] => ∀ b ∈ last, b ∈ ws
  | sep :: next :: rest => sep ≠ [] ∧ (∀ b ∈ sep, b ∈ ws) ∧ Separators ws (next :: rest)

end Sys2Proof.Machine
end

