-- ==== Sys2Proof/Machine/Vocabulary.lean ====
section
/-! DEFINITION. The vocabulary (40_vocabulary.md): VINIT (R80), the forward look-up `word_of` (R81), the reverse
look-up `index_of`, which is `VR` (R82), and the reset step (70_reset_and_hazards.md R170). -/

namespace Sys2Proof.Machine

/-- `word_of(v)` (R81). `VF` has an entry for every 11-bit index; beyond its end the model answers the empty word
(log 16). -/
def wordOf (vf : List VWord) (v : Nat) : VWord := vf.getD v []

/-- The last position of `t` in a list whose first entry has index `v`. -/
def lastIndexFrom : Nat → List VWord → VWord → Option Nat
  | _, [], _ => none
  | v, w :: ws, t =>
    match lastIndexFrom (v + 1) ws t with
    | some r => some r
    | none => if w = t then some v else none

/-- `index_of(t)` (R82): the largest index whose word equals `t` byte for byte, or none. This is `VR` (R27). -/
def indexOf (vf : List VWord) (t : VWord) : Option Nat := lastIndexFrom 0 vf t

/-- VINIT (R80). On failure `VF` is not built: DESIGN CHOICE the empty list, which no rule reads (log 5). -/
def vinit (src : List VWord) (s : State) : State :=
  if src.length ≠ nVocab then
    { s with vok := false, errf := true, err := ErrKind.invalidVocabularySize.code, errInfo := 0, vf := [] }
  else
    { s with vok := true, errf := false, err := 0, errInfo := 0, vf := src }

/-- The first two lines of R170: every host-visible location and `OP` to 0. -/
def clearAll (s : State) : State :=
  { s with busy := false, done := false, errf := false, vok := false,
           err := 0, errInfo := 0, errOff := 0, errLen := 0,
           einLen := 0, txtLen := 0, eoutLen := 0, mcount := 0,
           midx := Vector.replicate 24 0, mwLen := Vector.replicate 24 0,
           mem := [], op := 0 }

/-- The reset step of R170: one atomic step from any state. The host's side of the port, `rdata` and `pending`, is not
the block's and stays (log 1, 3); the presented list is the configuration's from now on (R6). -/
def resetStep (src : List VWord) (s : State) : State :=
  vinit src (clearAll { s with srcFits := decide (s.params.Fits src) })

end Sys2Proof.Machine
end

