-- ==== Sys2Proof/Machine/DecodeOp.lean ====
section
/-! DEFINITION. The completion of DECODE (43_decode.md R120 to R125): tokenise, count, look up, reassemble, verify. -/

namespace Sys2Proof.Machine

/-- The text offered to DECODE: `TXT[0..TXT_LEN)` (R24, R69). -/
def State.text (s : State) : List Byte := s.mem.readBytes txtBase s.txtLen.toNat

/-- R122: the index of every token in order; the first miss raises `UnknownWord` with its position, offset and
length. -/
def lookUpTokens (vf : List VWord) (text : List Byte) : Nat → List Token → Except Failure (List Nat)
  | _, [] => .ok []
  | i, t :: ts =>
    match indexOf vf (t.bytes text) with
    | none => .error { kind := .unknownWord, info := i, off := t.off, len := t.len }
    | some r =>
      match lookUpTokens vf text (i + 1) ts with
      | .error f => .error f
      | .ok rs => .ok (r :: rs)

/-- R123 and R124 on the indices: the entropy if its checksum equals the embedded one. -/
def verifyIndices (idx : List Nat) : Except Failure (List Byte) :=
  if checksum (reassemble idx) = embeddedChecksum idx then .ok (reassemble idx)
  else .error { kind := .checksumMismatch, info := 0, off := 0, len := 0 }

/-- What DECODE computes (R125): the checks in the order of R153, then the entropy. -/
def decodeOutcome (s : State) : Except Failure (List Byte) :=
  if s.vok = false then .error { kind := .invalidVocabularySize, info := 0, off := 0, len := 0 }
  else if s.params.txtCap < s.txtLen.toNat then
    .error { kind := .textTooLong, info := 0, off := 0, len := 0 }
  else
    let toks := tokenize s.params.ws s.text
    if toks.length ∉ wordCounts then
      .error { kind := .invalidWordCount, info := toks.length, off := 0, len := 0 }
    else
      match lookUpTokens s.vf s.text 0 toks with
      | .error f => .error f
      | .ok idx => verifyIndices idx

/-- The success block's outputs (R125): the entropy and its length, the rest of `EOUT` 0. -/
def storeEntropy (e : List Byte) (s : State) : State :=
  { s with eoutLen := BitVec.ofNat 6 e.length,
           mem := (s.mem.clear eoutBase entCap).writeBytes eoutBase e }

/-- `DECODE_complete` (R125). -/
def decodeComplete (s : State) : State :=
  match decodeOutcome s with
  | .error f => raise f s
  | .ok e => reportSuccess (storeEntropy e s)

end Sys2Proof.Machine
end

