-- ==== Sys2Proof/Machine/EncodeOp.lean ====
section
/-! DEFINITION. The completion of ENCODE (42_encode.md R110 to R112). -/

namespace Sys2Proof.Machine

/-- The indices of an entropy `E` of legal length (R111): its `n` groups. -/
def entropyGroups (e : List Byte) : List Nat :=
  let eb := entropyBits e.length
  groups (bitString e (checksumBits eb) (checksum e)) (wordCount eb)

/-- The entropy offered to ENCODE: `EIN[0..EIN_LEN)` (R20, R111). -/
def State.entropyIn (s : State) : List Byte := s.mem.readBytes einBase s.einLen.toNat

/-- What ENCODE computes (R111): the checks in order, then the groups. -/
def encodeOutcome (s : State) : Except Failure (List Nat) :=
  if s.vok = false then .error { kind := .invalidVocabularySize, info := 0, off := 0, len := 0 }
  else if s.einLen.toNat ∉ entLens then
    .error { kind := .invalidEntropyLength, info := 8 * s.einLen.toNat, off := 0, len := 0 }
  else .ok (entropyGroups s.entropyIn)

/-- `MIDX` of a success (R111): group `i`, then 0. -/
def midxOf (g : List Nat) : Vector (BitVec 11) 24 :=
  Vector.ofFn fun i => BitVec.ofNat 11 (g.getD i.val 0)

/-- `MW_LEN` of a success (R111, R68): the word's length, then 0. -/
def mwLenOf (ws : List VWord) : Vector (BitVec 5) 24 :=
  Vector.ofFn fun i => BitVec.ofNat 5 (ws.getD i.val []).length

/-- The words' bytes in their slots from slot `i` on (R68, R111): no byte beyond `WORD_MAX`. -/
def writeSlots (wordMax : Nat) : Nat → List VWord → Memory → Memory
  | _, [], m => m
  | i, w :: ws, m => writeSlots wordMax (i + 1) ws (m.writeBytes (slotBase i + 1) (w.take wordMax))

/-- The success block's outputs (R111): count, indices and words; every other slot and every other byte of a slot 0. -/
def storeMnemonic (g : List Nat) (s : State) : State :=
  let words := g.map (wordOf s.vf)
  { s with mcount := BitVec.ofNat 5 g.length, midx := midxOf g, mwLen := mwLenOf words,
           mem := writeSlots s.params.wordMax 0 words (s.mem.clear slotWindow (32 * mnCap)) }

/-- `ENCODE_complete` (R111). -/
def encodeComplete (s : State) : State :=
  match encodeOutcome s with
  | .error f => raise f s
  | .ok g => reportSuccess (storeMnemonic g s)

end Sys2Proof.Machine
end

