-- ==== Sys2Proof/Machine/Engine.lean ====
section
/-! DEFINITION. The engine's one step, the completion (44_commands.md R143), and the turns of the engine and of the
reset input as the step takes them. -/

namespace Sys2Proof.Machine

/-- `complete` (R143), enabled when `BUSY` = 1: dispatch on `OP`. A busy state with another `OP` is unreachable (R30
(a)) and stops (log 11). -/
def complete (s : State) : Host.Outcome State Fault Refusal :=
  if s.op = 1 then .next (encodeComplete s)
  else if s.op = 2 then .next (decodeComplete s)
  else .fault .engineWithoutOperation

/-- The engine's turn: the completion if it is enabled, nothing otherwise (R143, R7 (b)). -/
def engineTurn (s : State) : Host.Outcome State Fault Refusal :=
  if s.busy then complete s else .next s

/-- The reset input's turn (R170); a word list that makes the configuration ill-formed is refused (R6, log 10). -/
def resetTurn (src : List VWord) (s : State) : Host.Outcome State Fault Refusal :=
  if s.params.Fits src then .next (resetStep src s) else .refused .illFormedConfiguration

end Sys2Proof.Machine
end

