-- ==== Sys2Proof/Machine/Step.lean ====
section
/-! DEFINITION. One step of the machine: the oldest pending event happens, whole (20_memory.md R48, R49). -/

namespace Sys2Proof.Machine

/-- The host's turn: its record is decoded (R60) and the transaction is performed. -/
def hostTurn (t : BitVec 49) (s : State) : Host.Outcome State Fault Refusal :=
  match decodeHost t with
  | .ok i => exec i s
  | .error _ => .refused .malformedRecord

/-- What an event does. -/
def turn (e : Event) (s : State) : Host.Outcome State Fault Refusal :=
  match e with
  | .host t => hostTurn t s
  | .engine => engineTurn s
  | .reset src => resetTurn src s

/-- One step. An ill-formed configuration has no meaning: every step is refused (R6, log 10). The oldest event of `pending` is taken off and happens.
With nothing pending the engine takes its turn: an enabled completion is eventually taken (R143), and an idle block
stays as it is (log 2). -/
def step (s : State) : Host.Outcome State Fault Refusal :=
  if s.ConfigWf then
    match s.pending with
    | [] => engineTurn s
    | e :: rest => turn e { s with pending := rest }
  else .refused .illFormedConfiguration

/-- The table word `w` as the very next event: the record the host issues for it (a command word travels as
`WR 0x0000, w`, R62). -/
def State.withFetchWord (s : State) (nbits w : Nat) : State :=
  { s with pending := .host (tableCode nbits w).asRecord :: s.pending }

end Sys2Proof.Machine
end

