-- ==== Sys2Proof/Machine/Datapath.lean ====
section
/-! DEFINITION. The two rolling-accumulator datapaths the spec describes beside the normative rules (42_encode.md R113,
43_decode.md R126): micro-architecture, not observable, called by no step. They are here so that their equality with
R112 and R123 can be stated. -/

namespace Sys2Proof.Machine

/-- The inner loop of R113: while `nb` ≥ 11, append the low 11 bits to `out` and shift them out. `fuel` bounds the
turns; `nb` is enough. -/
def extractGroups : Nat → Nat → Nat → List Nat → Nat × Nat × List Nat
  | 0, acc, nb, out => (acc, nb, out)
  | fuel + 1, acc, nb, out =>
    if 11 ≤ nb then extractGroups fuel (acc >>> 11) (nb - 11) (out ++ [acc &&& 0x7FF]) else (acc, nb, out)

/-- The outer loop of R113 over the entropy bytes, last byte first. -/
def encodeAccumulate : List Byte → Nat → Nat → List Nat → Nat × Nat × List Nat
  | [], acc, nb, out => (acc, nb, out)
  | b :: bs, acc, nb, out =>
    let acc' := acc ||| (b.toNat <<< nb)
    let r := extractGroups (nb + 8) acc' (nb + 8) out
    encodeAccumulate bs r.1 r.2.1 r.2.2

/-- R113 on an entropy: the accumulator seeded with the checksum, the final (`acc`, `nb`, `out`). -/
def encodeDatapath (e : List Byte) : Nat × Nat × List Nat :=
  encodeAccumulate e.reverse (checksum e) (checksumBits (entropyBits e.length)) []

/-- The inner loop of R126: while `nb` ≥ 8 and fewer than `nbytes` bytes are out, emit the top byte. -/
def extractBytes (nbytes : Nat) : Nat → Nat → Nat → List Byte → Nat × Nat × List Byte
  | 0, acc, nb, out => (acc, nb, out)
  | fuel + 1, acc, nb, out =>
    if 8 ≤ nb ∧ out.length < nbytes then
      extractBytes nbytes fuel (acc &&& (2 ^ (nb - 8) - 1)) (nb - 8)
        (out ++ [BitVec.ofNat 8 ((acc >>> (nb - 8)) &&& 0xFF)])
    else (acc, nb, out)

/-- The outer loop of R126 over the indices, first token first. -/
def decodeAccumulate (nbytes : Nat) : List Nat → Nat → Nat → List Byte → Nat × Nat × List Byte
  | [], acc, nb, out => (acc, nb, out)
  | i :: is, acc, nb, out =>
    let r := extractBytes nbytes (nb + 11) ((acc <<< 11) ||| i) (nb + 11) out
    decodeAccumulate nbytes is r.1 r.2.1 r.2.2

/-- R126 on the indices: the final (`acc`, `nb`, `out`), where `out` is `E'` and `acc` is `emb`. -/
def decodeDatapath (idx : List Nat) : Nat × Nat × List Byte :=
  decodeAccumulate (messageLengthForWordCount idx.length / 8) idx 0 0 []

end Sys2Proof.Machine
end

