-- ==== Sys2Proof/Safety.lean ====
section
/-! DEFINITION. What counts as a safe run, and the invariant of 10_state.md R30. -/

namespace Sys2Proof.Machine

/-- The step answered a next state: neither a fault nor a refusal. -/
def Safe (o : Host.Outcome State Fault Refusal) : Prop := ∃ s, o = .next s

/-- `k` steps from `s` all answer a next state. -/
def SafeRun (k : Nat) (s : State) : Prop := Safe (Sys2Proof.core.run k s)

/-- The word in slot `i` (R23): `MW(i)` = `MW_B[i][0 .. MW_LEN[i])`. -/
def State.slotWord (s : State) (i : Fin 24) : VWord :=
  s.mem.readBytes (slotBase i + 1) (s.mwLen.get i).toNat

/-- `a` is the address of a byte location under the parameters (R41). -/
def IsByteAddr (p : Params) (a : Nat) : Prop :=
  ∃ addr, (locate p addr).byteAddr = some a

/-- R30, letter by letter, with what it rests on: the configuration is well-formed (R6), the memory is canonical and lists
byte locations only, and a constructed vocabulary has 2048 words that fit a slot (R26). -/
structure Inv (s : State) : Prop where
  params_wf : s.params.Wf
  src_fits : s.srcFits = true
  mem_wf : s.mem.wf = true
  mem_mapped : ∀ c ∈ s.mem, IsByteAddr s.params c.1
  vocab_size : s.vok = true → s.vf.length = 2048
  vocab_fits : s.vok = true → s.params.Fits s.vf
  /-- (a) -/
  busy_iff_op : s.busy = true ↔ s.op = 1 ∨ s.op = 2
  /-- (a): `OP` is 0 otherwise; 3 is never held (R25). -/
  idle_op : s.busy = false → s.op = 0
  /-- (b) -/
  not_busy_done : ¬ (s.busy = true ∧ s.done = true)
  /-- (c) -/
  errf_iff : s.errf = true ↔ s.err ≠ 0
  /-- (d) -/
  no_vocab_err : s.vok = false → s.err = 1 ∧ s.errf = true
  /-- (e) -/
  mcount_legal : s.mcount.toNat = 0 ∨ s.mcount.toNat ∈ wordCounts
  /-- (e) -/
  eoutLen_legal : s.eoutLen.toNat = 0 ∨ s.eoutLen.toNat ∈ entLens
  /-- (f) -/
  midx_tail : ∀ i : Fin 24, s.mcount.toNat ≤ i → s.midx.get i = 0
  /-- (f) -/
  mwLen_tail : ∀ i : Fin 24, s.mcount.toNat ≤ i → s.mwLen.get i = 0
  /-- (f): no byte of a slot beyond its length; with `mwLen_tail`, slots beyond `MCOUNT` are all 0. -/
  mwB_tail : ∀ (i : Fin 24) (j : Nat), (s.mwLen.get i).toNat ≤ j → j < s.params.wordMax →
    s.mem.read (slotBase i + 1 + j) = 0
  /-- R23: `MW_LEN[i]` ≤ `WORD_MAX`. -/
  mwLen_le : ∀ i : Fin 24, (s.mwLen.get i).toNat ≤ s.params.wordMax
  /-- (f) -/
  eout_tail : ∀ i, s.eoutLen.toNat ≤ i → i < 32 → s.mem.read (eoutBase + i) = 0
  /-- (g) -/
  mcount_vok : s.mcount.toNat ≠ 0 → s.vok = true
  /-- (g) -/
  slots_spell : ∀ i : Fin 24, i < s.mcount.toNat → s.slotWord i = wordOf s.vf (s.midx.get i).toNat
  /-- (h) -/
  err_ref : s.err ≠ 4 → s.errOff = 0 ∧ s.errLen = 0
  /-- (h) -/
  err_info : s.err ≠ 2 → s.err ≠ 3 → s.err ≠ 4 → s.errInfo = 0
  /-- R13: code 7 is never produced. -/
  err_code : s.err ≠ 7
  /-- (i): `ERRF` with a vocabulary is set only together with `DONE`, and `DONE` is cleared only by a start. -/
  errf_seen : s.vok = true → s.errf = true → s.busy = true ∨ s.done = true

/-- 10_state.md R30 in its own words, clauses (a) to (i) in order. -/
def R30 (s : State) : Prop :=
  (s.busy = true ↔ s.op = 1 ∨ s.op = 2) ∧
  ¬ (s.busy = true ∧ s.done = true) ∧
  (s.errf = true ↔ s.err ≠ 0) ∧
  (s.vok = false → s.err = 1 ∧ s.errf = true) ∧
  (s.mcount.toNat ∈ [0, 12, 15, 18, 21, 24] ∧ s.eoutLen.toNat ∈ [0, 16, 20, 24, 28, 32]) ∧
  ((∀ i : Fin 24, s.mcount.toNat ≤ i → s.midx.get i = 0 ∧ s.mwLen.get i = 0 ∧
      ∀ j, j < s.params.wordMax → s.mem.read (slotBase i + 1 + j) = 0) ∧
    (∀ (i : Fin 24) (j : Nat), (s.mwLen.get i).toNat ≤ j → j < s.params.wordMax →
      s.mem.read (slotBase i + 1 + j) = 0) ∧
    (∀ i, s.eoutLen.toNat ≤ i → i < 32 → s.mem.read (eoutBase + i) = 0)) ∧
  (s.mcount ≠ 0 → s.vok = true ∧
    ∀ i : Fin 24, i < s.mcount.toNat → s.slotWord i = wordOf s.vf (s.midx.get i).toNat) ∧
  ((s.err ≠ 4 → s.errOff = 0 ∧ s.errLen = 0) ∧ (s.err ≠ 2 → s.err ≠ 3 → s.err ≠ 4 → s.errInfo = 0)) ∧
  s.statusWord ∈ [0x4#32, 0x5#32, 0x6#32, 0x8#32, 0x9#32, 0xA#32, 0xD#32, 0xE#32]

/-- The reachable states under configuration `c`: any schedule of events from reset, any number of steps. Under an
ill-formed configuration there is none (R6). -/
inductive Reachable (c : Config) : State → Prop where
  | reset (h : c.Wf) (events : List Event) : Reachable c { State.resetOf c with pending := events }
  | step {s t : State} (h : Reachable c s) (e : step s = .next t) : Reachable c t

/-- The host's inputs of two states are the same: the length registers, `EIN` and `TXT` (10_state.md R16, R17, R20,
R24). -/
def SameInputs (s t : State) : Prop :=
  t.einLen = s.einLen ∧ t.txtLen = s.txtLen ∧
  (∀ i, i < 32 → t.mem.read (einBase + i) = s.mem.read (einBase + i)) ∧
  (∀ k, k < s.params.txtCap → t.mem.read (txtBase + k) = s.mem.read (txtBase + k))

/-- The error report of two states is the same (10_state.md R13, R14, R15). -/
def SameReport (s t : State) : Prop :=
  t.err = s.err ∧ t.errInfo = s.errInfo ∧ t.errOff = s.errOff ∧ t.errLen = s.errLen ∧ t.errf = s.errf

/-- ENCODE's outputs of two states are the same (10_state.md R19, R22, R23). -/
def SameMnemonic (s t : State) : Prop :=
  t.mcount = s.mcount ∧ t.midx = s.midx ∧ t.mwLen = s.mwLen ∧
  (∀ i j, i < 24 → j < s.params.wordMax → t.mem.read (slotBase i + 1 + j) = s.mem.read (slotBase i + 1 + j))

/-- DECODE's outputs of two states are the same (10_state.md R18, R21). -/
def SameEntropy (s t : State) : Prop :=
  t.eoutLen = s.eoutLen ∧ (∀ i, i < 32 → t.mem.read (eoutBase + i) = s.mem.read (eoutBase + i))

/-- The vocabulary and the configuration of two states are the same (R26, R5, R6). -/
def SameVocabulary (s t : State) : Prop :=
  t.vok = s.vok ∧ t.vf = s.vf ∧ t.params = s.params ∧ t.srcFits = s.srcFits

/-- The addresses R41 leaves unmapped, listed as the table lists them. -/
def UnmappedAddr (p : Params) (a : Nat) : Prop :=
  (0x000A ≤ a ∧ a ≤ 0x001F) ∨ (0x0078 ≤ a ∧ a ≤ 0x00FF) ∨ (0x0400 ≤ a ∧ a ≤ 0x0FFF) ∨
  (0x1000 + p.txtCap ≤ a ∧ a ≤ 0xFFFF) ∨
  (∃ i j, i < 24 ∧ p.wordMax ≤ j ∧ j < 31 ∧ a = 0x0100 + 32 * i + 1 + j)

/-- The next event of a state is a reset. -/
def NextIsReset (s : State) : Prop := ∃ src rest, s.pending = .reset src :: rest

/-- The next event of a state is a host transaction. -/
def NextIsHost (s : State) : Prop := ∃ t rest, s.pending = .host t :: rest

end Sys2Proof.Machine
end

