-- ==== Sys2Proof/Certificates/Slice0/Obligations.lean ====
section
/-! DEFINITION. The statements for the provers, in the order of OBLIGATIONS.json. -/

open Sys2Proof Sys2Proof.Machine

/-! Encoding and the step. -/

/-- The decoder and the encoder are inverse, in both directions: every instruction, with every operand value, is read
back from its code, and every code that is read as an instruction is the code of that instruction (R60, R63). -/
def Obligations.DecoderAndEncoderAreInverse : Prop :=
  (∀ i : Instr, i.Wf → decode (encode i) = .ok i) ∧
  (∀ (c : Code) (i : Instr), decode c = .ok i → encode i = c)

/-- Words written out from the spec: the three command words (R63) and records of programs P1, P2 and P4
(95_test_vectors.md section 9). -/
def Obligations.WordsOfTheSpecDecode : Prop :=
  decode (.cmd 0x00000000#32) = .ok .nop ∧
  decode (.cmd 0x00000001#32) = .ok .encode ∧
  decode (.cmd 0x00000002#32) = .ok .decode ∧
  decode (.host 0x1_0020_0000009e#49) = .ok (.wr 0x0020#16 0x9e#32) ∧
  decode (.host 0x1_0006_00010005#49) = .ok (.wr 0x0006#16 0x10005#32) ∧
  decode (.host 0x0_0100_00000000#49) = .ok (.rd 0x0100#16) ∧
  decode (.host 0x0_0100_00000001#49) = .error .readDataNotZero ∧
  decode (.cmd 0x80000001#32) = .error .reservedCommand

/-- R63: the full command word is matched; 0 is NOP and has no effect, 1 and 2 start an operation, every other value is
reserved and ignored. -/
def Obligations.CommandCodesAreTheWholeWord : Prop :=
  ∀ w : Word32,
    (decodeCmd w = .ok .nop ↔ w = 0#32) ∧
    (decodeCmd w = .ok .encode ↔ w = 1#32) ∧
    (decodeCmd w = .ok .decode ↔ w = 2#32) ∧
    (decodeCmd w = .error .reservedCommand ↔ w ≠ 0#32 ∧ w ≠ 1#32 ∧ w ≠ 2#32) ∧
    ∀ s : State, s.busy = false →
      (w = 0#32 → exec (.wr 0x0000#16 w) s = .next s) ∧
      (w = 1#32 → exec (.wr 0x0000#16 w) s = .next { s with op := 1, busy := true, done := false }) ∧
      (w = 2#32 → exec (.wr 0x0000#16 w) s = .next { s with op := 2, busy := true, done := false }) ∧
      (w ≠ 0#32 → w ≠ 1#32 → w ≠ 2#32 → exec (.wr 0x0000#16 w) s = .next s)

/-- When the next event is a host record that decodes to an instruction, the step is `exec` of that instruction at the
state whose oldest event has been taken off (R48, R60). -/
def Obligations.StepRunsTheDecodedTransaction : Prop :=
  ∀ (s : State) (r : BitVec 49) (rest : List Event) (i : Instr), s.ConfigWf →
    s.pending = .host r :: rest → decode (.host r) = .ok i →
    step s = exec i { s with pending := rest }

/-- A command word that decodes to a command runs exactly that command when the host writes it to `CMD` (R62), both as
a transaction and as a step. -/
def Obligations.CommandWordRunsItsInstruction : Prop :=
  ∀ (s : State) (c : Word32) (i : Instr), decode (.cmd c) = .ok i →
    exec (.wr 0x0000#16 c) s = exec i s ∧
    ∀ rest, s.ConfigWf → s.pending = .host (Code.cmd c).asRecord :: rest →
      step s = exec i { s with pending := rest }

/-! The commands. -/

/-- R140: NOP has no effect; every element keeps its value. -/
def Obligations.NopHasNoEffect : Prop :=
  ∀ s : State, exec .nop s = .next s ∧
    (s.busy = false → exec (.wr 0x0000#16 0x00000000#32) s = .next s)

/-- R141: a start writes `OP`, `BUSY` and `DONE` and nothing else, whatever `DONE` and `ERRF` are. -/
def Obligations.StartWritesOpBusyAndDone : Prop :=
  ∀ s : State, s.busy = false →
    exec .encode s = .next { s with op := 1, busy := true, done := false } ∧
    exec .decode s = .next { s with op := 2, busy := true, done := false } ∧
    exec (.wr 0x0000#16 1#32) s = .next { s with op := 1, busy := true, done := false } ∧
    exec (.wr 0x0000#16 2#32) s = .next { s with op := 2, busy := true, done := false }

/-- R47: while `BUSY` = 1 every host write, `CMD` included, has no effect; and until the completion or a reset no step
changes an input or the operation in progress. -/
def Obligations.WritesWhileBusyAreDropped : Prop :=
  ∀ s : State, s.busy = true →
    (∀ a v, exec (.wr a v) s = .next s) ∧
    exec .nop s = .next s ∧ exec .encode s = .next s ∧ exec .decode s = .next s ∧
    ∀ t, step s = .next t → ¬ NextIsReset s →
      SameInputs s t ∧ SameVocabulary s t ∧ (t.busy = true → t.op = s.op)

/-- R144, as the hardware behaves: a reserved command word starts nothing and changes nothing. That the model runs such
a program and does not refuse it is its own choice (log 7). -/
def Obligations.ReservedCommandsAreIgnored : Prop :=
  ∀ (s : State) (c : Word32), s.busy = false → c ≠ 0#32 → c ≠ 1#32 → c ≠ 2#32 →
    exec (.wr 0x0000#16 c) s = .next s

/-! The host transactions. -/

/-- R44: a write of a read/write location stores the low bits of the offered value, exactly. -/
def Obligations.WritesStoreTheTruncatedValue : Prop :=
  ∀ (s : State) (v : Word32), s.params.Wf → s.busy = false →
    exec (.wr 0x0006#16 v) s = .next { s with einLen := v.extractLsb' 0 16 } ∧
    exec (.wr 0x0007#16 v) s = .next { s with txtLen := v.extractLsb' 0 16 } ∧
    (∀ i, i < 32 → exec (.wr (BitVec.ofNat 16 (0x0020 + i)) v) s =
      .next { s with mem := s.mem.write (0x0020 + i) (v.extractLsb' 0 8) }) ∧
    (∀ k, k < s.params.txtCap → exec (.wr (BitVec.ofNat 16 (0x1000 + k)) v) s =
      .next { s with mem := s.mem.write (0x1000 + k) (v.extractLsb' 0 8) })

/-- A read after a write of a read/write location returns the truncated value, and every other location reads as before
(R48, R44, R177). -/
def Obligations.ReadAfterWriteReturnsTheValue : Prop :=
  ∀ (s : State) (a : Addr) (v : Word32), Inv s → s.busy = false →
    (a = 0x0006#16 ∨ a = 0x0007#16 ∨ (0x0020 ≤ a.toNat ∧ a.toNat < 0x0040) ∨
      (0x1000 ≤ a.toNat ∧ a.toNat < 0x1000 + s.params.txtCap)) →
    ∃ t, exec (.wr a v) s = .next t ∧
      memRead t a = (if a.toNat < 0x0008 then (v.extractLsb' 0 16).setWidth 32 else (v.extractLsb' 0 8).setWidth 32) ∧
      ∀ b, b ≠ a → memRead t b = memRead s b

/-- R45: a read of an unmapped address returns 0, a write to one has no effect, neither raises an error. -/
def Obligations.UnmappedAddressesReadZeroAndIgnoreWrites : Prop :=
  ∀ (s : State) (a : Addr) (v : Word32), s.params.Wf → UnmappedAddr s.params a.toNat →
    exec (.rd a) s = .next { s with rdata := 0 } ∧ exec (.wr a v) s = .next s

/-- R46: a write to a read-only location has no effect, and `CMD` reads 0. -/
def Obligations.ReadOnlyLocationsIgnoreWrites : Prop :=
  ∀ (s : State) (a : Addr) (v : Word32), s.params.Wf →
    (a.toNat ∈ [0x0001, 0x0002, 0x0003, 0x0004, 0x0005, 0x0008, 0x0009] ∨
      (0x0040 ≤ a.toNat ∧ a.toNat < 0x0060) ∨ (0x0060 ≤ a.toNat ∧ a.toNat < 0x0078) ∨
      (∃ i j, i < 24 ∧ j ≤ s.params.wordMax ∧ a.toNat = 0x0100 + 32 * i + j) →
      exec (.wr a v) s = .next s) ∧
    exec (.rd 0x0000#16) s = .next { s with rdata := 0 }

/-- R42 over the map of R41: a read answers the zero-extended value of the location its address names, 0 for `CMD`, and
changes no state of the block. -/
def Obligations.ReadsFollowTheAddressMap : Prop :=
  ∀ s : State, s.params.Wf →
    (∀ a, exec (.rd a) s = .next { s with rdata := memRead s a }) ∧
    memRead s 0x0000#16 = 0 ∧
    memRead s 0x0001#16 = s.statusWord ∧
    memRead s 0x0002#16 = s.err.setWidth 32 ∧
    memRead s 0x0003#16 = s.errInfo ∧
    memRead s 0x0004#16 = s.errOff.setWidth 32 ∧
    memRead s 0x0005#16 = s.errLen.setWidth 32 ∧
    memRead s 0x0006#16 = s.einLen.setWidth 32 ∧
    memRead s 0x0007#16 = s.txtLen.setWidth 32 ∧
    memRead s 0x0008#16 = s.eoutLen.setWidth 32 ∧
    memRead s 0x0009#16 = s.mcount.setWidth 32 ∧
    (∀ i, i < 32 → memRead s (BitVec.ofNat 16 (0x0020 + i)) = (s.mem.read (0x0020 + i)).setWidth 32) ∧
    (∀ i, i < 32 → memRead s (BitVec.ofNat 16 (0x0040 + i)) = (s.mem.read (0x0040 + i)).setWidth 32) ∧
    (∀ i : Fin 24, memRead s (BitVec.ofNat 16 (0x0060 + i)) = (s.midx.get i).setWidth 32) ∧
    (∀ i : Fin 24, memRead s (BitVec.ofNat 16 (0x0100 + 32 * i)) = (s.mwLen.get i).setWidth 32) ∧
    (∀ (i : Fin 24) (j : Nat), j < s.params.wordMax →
      memRead s (BitVec.ofNat 16 (0x0100 + 32 * i + 1 + j)) = (s.mem.read (0x0100 + 32 * i + 1 + j)).setWidth 32) ∧
    (∀ k, k < s.params.txtCap →
      memRead s (BitVec.ofNat 16 (0x1000 + k)) = (s.mem.read (0x1000 + k)).setWidth 32) ∧
    (∀ a : Addr, UnmappedAddr s.params a.toNat → memRead s a = 0)

/-- The frame of every instruction: no host transaction writes an error register, an output, the vocabulary or the
schedule; only a `RD` changes what the host last read; every byte of memory reads as before except the one an accepted
`WR` stores to, at the address the map gives it; `EIN_LEN` and `TXT_LEN` change only by a write of their address; `OP`,
`BUSY` and `DONE` change only by an accepted start (R42, R43, R141, R145, R146, R155, R173). The parameters are
well-formed (R6), so that the windows of the map do not overlap. -/
def Obligations.HostTransactionsChangeOnlyWhatTheyName : Prop :=
  ∀ (i : Instr) (s t : State), s.params.Wf → exec i s = .next t →
    SameReport s t ∧ SameMnemonic s t ∧ SameEntropy s t ∧ SameVocabulary s t ∧ t.pending = s.pending ∧
    ((∀ a, i ≠ .rd a) → t.rdata = s.rdata) ∧
    (∀ x, ¬ (∃ a v, i = .wr a v ∧ s.busy = false ∧ (locate s.params a).writable = true ∧
        (locate s.params a).byteAddr = some x) → t.mem.read x = s.mem.read x) ∧
    ((∀ v, i ≠ .wr 0x0006#16 v) → t.einLen = s.einLen) ∧
    ((∀ v, i ≠ .wr 0x0007#16 v) → t.txtLen = s.txtLen) ∧
    (¬ (s.busy = false ∧ (i = .encode ∨ i = .decode ∨ i = .wr 0x0000#16 1#32 ∨ i = .wr 0x0000#16 2#32)) →
      t.op = s.op ∧ t.busy = s.busy ∧ t.done = s.done)

/-- NOP, ENCODE, DECODE and RD store no byte: all of memory and every register but `OP`, `BUSY`, `DONE` and the host's
read data is as before. -/
def Obligations.CommandsAndReadsStoreNothing : Prop :=
  ∀ s t : State,
    (exec .nop s = .next t → t = s) ∧
    (exec .encode s = .next t → t = { s with op := t.op, busy := t.busy, done := t.done }) ∧
    (exec .decode s = .next t → t = { s with op := t.op, busy := t.busy, done := t.done }) ∧
    (∀ a, exec (.rd a) s = .next t → t = { s with rdata := t.rdata })

/-! The completion of ENCODE. -/

/-- R111: the two failures in order, and on success the count, the indices `(V >> (11·(n−1−i))) & 0x7FF`, the words
`VF[g_i]` in their slots with 0 behind them, the slots beyond the count 0, the success report, and no other element
changed. The success clause is about states of the invariant, where no word overruns its slot. -/
def Obligations.EncodeCompletionComputesTheMnemonic : Prop :=
  ∀ s : State, s.busy = true → s.op = 1 →
    (s.vok = false →
      complete s = .next (raise { kind := .invalidVocabularySize, info := 0, off := 0, len := 0 } s)) ∧
    (s.vok = true → s.einLen.toNat ∉ [16, 20, 24, 28, 32] →
      complete s = .next
        (raise { kind := .invalidEntropyLength, info := 8 * s.einLen.toNat, off := 0, len := 0 } s)) ∧
    (s.vok = true → s.einLen.toNat ∈ [16, 20, 24, 28, 32] → Inv s →
      let e := (List.range s.einLen.toNat).map fun i => s.mem.read (0x0020 + i)
      let eb := 8 * s.einLen.toNat
      let cs := eb / 32
      let c := ((sha256 e).getD 0 0).toNat >>> (8 - cs)
      let n := (eb + cs) / 11
      let v := be e * 2 ^ cs + c
      ∃ t, complete s = .next t ∧ t.mcount.toNat = n ∧
        (∀ i : Fin 24, i < n →
          (t.midx.get i).toNat = (v >>> (11 * (n - 1 - i))) &&& 0x7FF ∧
          (t.mwLen.get i).toNat = (s.vf.getD (t.midx.get i).toNat []).length ∧
          ∀ j, j < s.params.wordMax →
            t.mem.read (0x0100 + 32 * i + 1 + j) = (s.vf.getD (t.midx.get i).toNat []).getD j 0) ∧
        (∀ i : Fin 24, n ≤ i → t.midx.get i = 0 ∧ t.mwLen.get i = 0 ∧
          ∀ j, j < s.params.wordMax → t.mem.read (0x0100 + 32 * i + 1 + j) = 0) ∧
        t.err = 0 ∧ t.errInfo = 0 ∧ t.errOff = 0 ∧ t.errLen = 0 ∧
        t.errf = false ∧ t.busy = false ∧ t.done = true ∧ t.op = 0 ∧
        SameInputs s t ∧ SameEntropy s t ∧ SameVocabulary s t)

/-- R110, the elements not touched by the completion of ENCODE, whether it succeeds or fails; every byte outside the
word-slot window reads as before. -/
def Obligations.EncodeCompletionTouchesOnlyItsOutputs : Prop :=
  ∀ s : State, s.busy = true → s.op = 1 → s.params.Wf →
    ∃ t, complete s = .next t ∧ SameInputs s t ∧ SameEntropy s t ∧ SameVocabulary s t ∧
      t.rdata = s.rdata ∧ t.pending = s.pending ∧
      ∀ x, ¬ (0x0100 ≤ x ∧ x < 0x0400) → t.mem.read x = s.mem.read x

/-- R112: the direct partition and the sum over bits give the same groups for every entropy of legal length, and they
are what the completion of ENCODE puts in `MIDX`. -/
def Obligations.GroupsAreTheBitsOfTheConcatenation : Prop :=
  (∀ (e : List Byte) (i : Nat), e.length ∈ [16, 20, 24, 28, 32] →
    i < wordCount (entropyBits e.length) →
    let cs := checksumBits (entropyBits e.length)
    let n := wordCount (entropyBits e.length)
    ((bitString e cs (checksum e)) >>> (11 * (n - 1 - i))) &&& 0x7FF = groupOfBits e cs (checksum e) i) ∧
  (∀ s t : State, s.busy = true → s.op = 1 → s.vok = true → s.einLen.toNat ∈ [16, 20, 24, 28, 32] →
    complete s = .next t → ∀ i : Fin 24, i < wordCount (entropyBits s.einLen.toNat) →
      (t.midx.get i).toNat =
        groupOfBits s.entropyIn (checksumBits (entropyBits s.einLen.toNat)) (checksum s.entropyIn) i)

/-- The datapath of R113, which the spec marks as its own: "the accumulator width and the seeding with the checksum are
this spec's reconstruction". No step runs it (log 17). The rolling accumulator, seeded with the checksum and fed the bytes last to first, ends empty and leaves the
groups of R112 in reverse; before each byte at most 10 bits are held, so 18 bits suffice. -/
def Obligations.EncodeAccumulatorEqualsThePartition : Prop :=
  ∀ e : List Byte, e.length ∈ [16, 20, 24, 28, 32] →
    (encodeDatapath e).1 = 0 ∧ (encodeDatapath e).2.1 = 0 ∧
    (encodeDatapath e).2.2.reverse = entropyGroups e ∧
    ∀ (fed : List Byte) (b : Byte) (left : List Byte), e.reverse = fed ++ b :: left →
      let r := encodeAccumulate fed (checksum e) (checksumBits (entropyBits e.length)) []
      r.2.1 + 8 ≤ 18 ∧ r.1 ||| (b.toNat <<< r.2.1) < 2 ^ (r.2.1 + 8)

/-- R114 (c): two different entropies of one legal length differ in some index, and in the words when the entries of the
vocabulary are pairwise distinct. -/
def Obligations.DifferentEntropiesGiveDifferentMnemonics : Prop :=
  ∀ e e' : List Byte, e.length ∈ [16, 20, 24, 28, 32] → e'.length = e.length → e ≠ e' →
    entropyGroups e ≠ entropyGroups e' ∧
    ∀ vf : List VWord, vf.length = 2048 → vf.Nodup →
      (entropyGroups e).map (wordOf vf) ≠ (entropyGroups e').map (wordOf vf)

/-! The completion of DECODE. -/

/-- R120: the tokens are the maximal runs of non-whitespace bytes, left to right, and there are at most `(N + 1) / 2`. -/
def Obligations.TokensAreTheMaximalRuns : Prop :=
  ∀ ws text : List Byte,
    (∀ t ∈ tokenize ws text, 0 < t.len ∧ t.off + t.len ≤ text.length ∧
      (∀ b ∈ t.bytes text, b ∉ ws) ∧ (t.bytes text).length = t.len ∧
      (t.off = 0 ∨ text.getD (t.off - 1) 0 ∈ ws) ∧
      (t.off + t.len = text.length ∨ text.getD (t.off + t.len) 0 ∈ ws)) ∧
    (∀ k, k < text.length → text.getD k 0 ∉ ws →
      ∃ t ∈ tokenize ws text, t.off ≤ k ∧ k < t.off + t.len) ∧
    (tokenize ws text).Pairwise (fun a b => a.off + a.len < b.off) ∧
    (tokenize ws text).length ≤ (text.length + 1) / 2

/-- R125 with R121 to R124: the failures in order, each with its information, and on success the entropy in `EOUT`, 0
behind it, the success report, and no other element changed. -/
def Obligations.DecodeCompletionComputesTheEntropy : Prop :=
  ∀ s : State, s.busy = true → s.op = 2 →
    let text := (List.range s.txtLen.toNat).map fun k => s.mem.read (0x1000 + k)
    let toks := tokenize s.params.ws text
    let n := toks.length
    (s.vok = false →
      complete s = .next (raise { kind := .invalidVocabularySize, info := 0, off := 0, len := 0 } s)) ∧
    (s.vok = true → s.params.txtCap < s.txtLen.toNat →
      complete s = .next (raise { kind := .textTooLong, info := 0, off := 0, len := 0 } s)) ∧
    (s.vok = true → s.txtLen.toNat ≤ s.params.txtCap → n ∉ [12, 15, 18, 21, 24] →
      complete s = .next (raise { kind := .invalidWordCount, info := n, off := 0, len := 0 } s)) ∧
    (s.vok = true → s.txtLen.toNat ≤ s.params.txtCap → n ∈ [12, 15, 18, 21, 24] →
      ∀ i tok, toks[i]? = some tok → indexOf s.vf (tok.bytes text) = none →
        (∀ j u, j < i → toks[j]? = some u → indexOf s.vf (u.bytes text) ≠ none) →
        complete s = .next (raise { kind := .unknownWord, info := i, off := tok.off, len := tok.len } s)) ∧
    (s.vok = true → s.txtLen.toNat ≤ s.params.txtCap → n ∈ [12, 15, 18, 21, 24] →
      ∀ idx : List Nat, toks.map (fun tok => indexOf s.vf (tok.bytes text)) = idx.map some →
        let eb := n * 11 / 32 * 32
        let cs := eb / 32
        let vd := packIndices idx
        let e := (List.range (eb / 8)).map fun k => BitVec.ofNat 8 (((vd >>> cs) >>> (8 * (eb / 8 - 1 - k))) &&& 0xFF)
        let emb := vd &&& (2 ^ cs - 1)
        (((sha256 e).getD 0 0).toNat >>> (8 - cs) ≠ emb →
          complete s = .next (raise { kind := .checksumMismatch, info := 0, off := 0, len := 0 } s)) ∧
        (((sha256 e).getD 0 0).toNat >>> (8 - cs) = emb → s.mem.wf = true →
          ∃ t, complete s = .next t ∧ t.eoutLen.toNat = eb / 8 ∧
            (∀ k, k < eb / 8 → t.mem.read (0x0040 + k) = e.getD k 0) ∧
            (∀ k, eb / 8 ≤ k → k < 32 → t.mem.read (0x0040 + k) = 0) ∧
            t.err = 0 ∧ t.errInfo = 0 ∧ t.errOff = 0 ∧ t.errLen = 0 ∧
            t.errf = false ∧ t.busy = false ∧ t.done = true ∧ t.op = 0 ∧
            SameInputs s t ∧ SameMnemonic s t ∧ SameVocabulary s t))

/-- R125, the elements not touched by the completion of DECODE, whether it succeeds or fails; every byte outside `EOUT`
reads as before. -/
def Obligations.DecodeCompletionTouchesOnlyItsOutputs : Prop :=
  ∀ s : State, s.busy = true → s.op = 2 →
    ∃ t, complete s = .next t ∧ SameInputs s t ∧ SameMnemonic s t ∧ SameVocabulary s t ∧
      t.rdata = s.rdata ∧ t.pending = s.pending ∧
      ∀ x, ¬ (0x0040 ≤ x ∧ x < 0x0060) → t.mem.read x = s.mem.read x

/-- R123: `Vd` is the sum over i of `idx_i` · 2^(11·(n−1−i)), and reassembly inverts the partition: from the groups of an
entropy it gives the entropy and its checksum. -/
def Obligations.ReassemblyInvertsThePartition : Prop :=
  (∀ idx : List Nat, packIndices idx =
    ((List.range idx.length).map fun i => idx.getD i 0 * 2 ^ (11 * (idx.length - 1 - i))).sum) ∧
  (∀ idx : List Nat, reassemble idx =
    let eb := idx.length * 11 / 32 * 32
    (List.range (eb / 8)).map fun k =>
      BitVec.ofNat 8 (((packIndices idx >>> (eb / 32)) >>> (8 * (eb / 8 - 1 - k))) &&& 0xFF)) ∧
  (∀ idx : List Nat, embeddedChecksum idx = packIndices idx &&& (2 ^ (idx.length * 11 / 32 * 32 / 32) - 1)) ∧
  (∀ (idx : List Nat) (last : Nat), (idx ++ [last]).length ∈ [12, 15, 18, 21, 24] →
    embeddedChecksum (idx ++ [last]) = last &&& (2 ^ ((idx.length + 1) * 11 / 32 * 32 / 32) - 1)) ∧
  (∀ e : List Byte, e.length ∈ [16, 20, 24, 28, 32] →
    reassemble (entropyGroups e) = e ∧ embeddedChecksum (entropyGroups e) = checksum e) ∧
  (∀ idx : List Nat, idx.length ∈ [12, 15, 18, 21, 24] → (∀ i ∈ idx, i < 2048) →
    be (reassemble idx) = packIndices idx >>> (idx.length * 11 / 32 * 32 / 32))

/-- The datapath of R126, which the spec marks as its own: "the register widths and the stop condition are this spec's
reconstruction". No step runs it (log 17). The forward accumulator gives the bytes of R123 and ends holding exactly the embedded checksum; before each
index at most 7 bits are held, so 18 bits suffice. -/
def Obligations.DecodeAccumulatorEqualsTheReassembly : Prop :=
  ∀ idx : List Nat, idx.length ∈ [12, 15, 18, 21, 24] → (∀ i ∈ idx, i < 2048) →
    (decodeDatapath idx).1 = embeddedChecksum idx ∧
    (decodeDatapath idx).2.1 = idx.length * 11 / 32 * 32 / 32 ∧
    (decodeDatapath idx).2.2 = reassemble idx ∧
    ∀ (fed : List Nat) (i : Nat) (left : List Nat), idx = fed ++ i :: left →
      let r := decodeAccumulate (messageLengthForWordCount idx.length / 8) fed 0 0 []
      r.2.1 + 11 ≤ 18 ∧ (r.1 <<< 11) ||| i < 2 ^ (r.2.1 + 11)

/-- R127 (b): a mnemonic that verifies, with its last index changed only in the low checksum bits, fails with
`ChecksumMismatch`. -/
def Obligations.CorruptedChecksumBitsFail : Prop :=
  ∀ (idx : List Nat) (g g' : Nat) (e : List Byte), (∀ i ∈ idx, i < 2048) → g < 2048 → g' < 2048 →
    (idx ++ [g]).length ∈ [12, 15, 18, 21, 24] →
    g / 2 ^ ((idx.length + 1) * 11 / 32) = g' / 2 ^ ((idx.length + 1) * 11 / 32) → g ≠ g' →
    verifyIndices (idx ++ [g]) = .ok e →
    verifyIndices (idx ++ [g']) = .error { kind := .checksumMismatch, info := 0, off := 0, len := 0 }

/-- R127 (a), the round trip: when ENCODE succeeded on an entropy, and a text of the words it produced, separated (and
optionally surrounded) by whitespace, stands in `TXT`, DECODE succeeds and `EOUT` is the entropy. The premises on the
entries are the rule's: pairwise distinct, non-empty, free of whitespace. -/
def Obligations.DecodeOfEncodeIsTheEntropy : Prop :=
  ∀ s t : State, Inv s → Inv t → s.busy = true → s.op = 1 → t.busy = true → t.op = 2 →
    s.vok = true → t.vok = true → t.vf = s.vf → s.vf.Nodup →
    (∀ w ∈ s.vf, w ≠ [] ∧ ∀ b ∈ w, b ∉ t.params.ws) →
    s.einLen.toNat ∈ [16, 20, 24, 28, 32] →
    ∃ s', complete s = .next s' ∧ s'.errf = false ∧
      ∀ (lead : List Byte) (seps : List (List Byte)), (∀ b ∈ lead, b ∈ t.params.ws) →
        seps.length = s'.mcount.toNat → Separators t.params.ws seps →
        t.txtLen.toNat ≤ t.params.txtCap →
        t.text = spacedText lead ((((List.finRange 24).take s'.mcount.toNat).map s'.slotWord).zip seps) →
        ∃ t', complete t = .next t' ∧ t'.errf = false ∧ t'.err = 0 ∧ t'.eoutLen.toNat = s.einLen.toNat ∧
          ∀ i, i < s.einLen.toNat → t'.mem.read (eoutBase + i) = s.mem.read (einBase + i)

/-! Failures. -/

/-- R152: the failure step clears the failing command's outputs only, records the error and ends the operation. -/
def Obligations.FailureStepClearsAndReports : Prop :=
  ∀ (f : Failure) (s : State),
    (s.op = 1 → (raise f s).mcount = 0 ∧
      (∀ i : Fin 24, (raise f s).midx.get i = 0 ∧ (raise f s).mwLen.get i = 0 ∧
        ∀ j, j < 31 → (raise f s).mem.read (0x0100 + 32 * i + 1 + j) = 0) ∧
      (raise f s).eoutLen = s.eoutLen ∧
      ∀ x, ¬ (0x0100 ≤ x ∧ x < 0x0400) → (raise f s).mem.read x = s.mem.read x) ∧
    (s.op = 2 → (raise f s).eoutLen = 0 ∧ (∀ i, i < 32 → (raise f s).mem.read (0x0040 + i) = 0) ∧
      (raise f s).mcount = s.mcount ∧ (raise f s).midx = s.midx ∧ (raise f s).mwLen = s.mwLen ∧
      ∀ x, ¬ (0x0040 ≤ x ∧ x < 0x0060) → (raise f s).mem.read x = s.mem.read x) ∧
    (raise f s).err = f.kind.code ∧ (raise f s).errInfo = BitVec.ofNat 32 f.info ∧
    (raise f s).errOff = BitVec.ofNat 16 f.off ∧ (raise f s).errLen = BitVec.ofNat 16 f.len ∧
    (raise f s).errf = true ∧ (raise f s).busy = false ∧ (raise f s).done = true ∧ (raise f s).op = 0 ∧
    (raise f s).einLen = s.einLen ∧ (raise f s).txtLen = s.txtLen ∧ SameVocabulary s (raise f s)

/-- R151: the exact condition of every outcome, read from `ERR` after the completion and after reset. -/
def Obligations.EveryOutcomeHasItsCondition : Prop :=
  (∀ c : Config, ((State.resetOf c).err = 1 ↔ c.vocabSrc.length ≠ 2048) ∧
    ((State.resetOf c).err = 0 ↔ c.vocabSrc.length = 2048)) ∧
  (∀ s t : State, s.busy = true → s.op = 1 → complete s = .next t →
    (t.err = 1 ↔ s.vok = false) ∧
    (t.err = 2 ↔ s.vok = true ∧ s.einLen.toNat ∉ [16, 20, 24, 28, 32]) ∧
    (t.err = 0 ↔ s.vok = true ∧ s.einLen.toNat ∈ [16, 20, 24, 28, 32])) ∧
  (∀ s t : State, s.busy = true → s.op = 2 → complete s = .next t →
    let toks := tokenize s.params.ws s.text
    let read := s.vok = true ∧ s.txtLen.toNat ≤ s.params.txtCap
    let counted := read ∧ toks.length ∈ [12, 15, 18, 21, 24]
    (t.err = 1 ↔ s.vok = false) ∧
    (t.err = 6 ↔ s.vok = true ∧ s.params.txtCap < s.txtLen.toNat) ∧
    (t.err = 3 ↔ read ∧ toks.length ∉ [12, 15, 18, 21, 24]) ∧
    (t.err = 4 ↔ counted ∧ ∃ tok ∈ toks, indexOf s.vf (tok.bytes s.text) = none) ∧
    (t.err = 5 ↔ counted ∧ ∃ idx : List Nat, toks.map (fun tok => indexOf s.vf (tok.bytes s.text)) = idx.map some ∧
      checksum (reassemble idx) ≠ embeddedChecksum idx) ∧
    (t.err = 0 ↔ counted ∧ ∃ idx : List Nat, toks.map (fun tok => indexOf s.vf (tok.bytes s.text)) = idx.map some ∧
      checksum (reassemble idx) = embeddedChecksum idx))

/-! The vocabulary. -/

/-- R80: VINIT fails for every count other than 2048 and otherwise builds `VF` in input order; it writes nothing else. -/
def Obligations.VinitChecksTheCount : Prop :=
  ∀ (src : List VWord) (s : State),
    (src.length ≠ 2048 → vinit src s =
      { s with vok := false, errf := true, err := 1, errInfo := 0, vf := (vinit src s).vf }) ∧
    (src.length = 2048 → vinit src s =
      { s with vok := true, errf := false, err := 0, errInfo := 0, vf := src })

/-- R82: the reverse look-up is the largest index whose word equals the token byte for byte, and none when there is no
such index; a token longer than `WORD_MAX` equals no entry. -/
def Obligations.ReverseLookUpTakesTheLastOccurrence : Prop :=
  ∀ (vf : List VWord) (t : VWord), vf.length = 2048 →
    (indexOf vf t = none ↔ ∀ v, v < 2048 → wordOf vf v ≠ t) ∧
    (∀ r, indexOf vf t = some r ↔ r < 2048 ∧ wordOf vf r = t ∧ ∀ v, v < 2048 → wordOf vf v = t → v ≤ r) ∧
    (∀ p : Params, p.Fits vf → p.wordMax < t.length → indexOf vf t = none)

/-- R83: with two equal entries the reverse look-up of the word is not the smaller index but the largest. -/
def Obligations.DuplicateEntriesLoseTheSmallerIndex : Prop :=
  ∀ (vf : List VWord) (a b : Nat), vf.length = 2048 → a < b → b < 2048 → wordOf vf a = wordOf vf b →
    ∃ r, indexOf vf (wordOf vf a) = some r ∧ b ≤ r ∧ r < 2048 ∧ wordOf vf r = wordOf vf a

/-- R84: the index of an empty entry, or of one with a whitespace byte, is never the look-up of a token. -/
def Obligations.DegenerateEntriesAreNeverDecoded : Prop :=
  ∀ (vf : List VWord) (ws text : List Byte) (tok : Token) (v : Nat),
    tok ∈ tokenize ws text → indexOf vf (tok.bytes text) = some v →
    wordOf vf v ≠ [] ∧ ∀ b ∈ wordOf vf v, b ∉ ws

/-- R85: no step but a reset changes the vocabulary or its flag. -/
def Obligations.VocabularyIsImmutableBetweenResets : Prop :=
  ∀ s t : State, step s = .next t → ¬ NextIsReset s → SameVocabulary s t

/-! Reset. -/

/-- R170 and R31: a reset step, from any state, gives every element the value of the table. `VR` is
`indexOf t.vf`. -/
def Obligations.ResetStepGivesTheResetValues : Prop :=
  ∀ (s : State) (src : List VWord) (rest : List Event), s.ConfigWf → s.params.Fits src →
    s.pending = .reset src :: rest →
    ∃ t, step s = .next t ∧ t.busy = false ∧ t.done = false ∧
      (t.vok = true ↔ src.length = 2048) ∧ (t.errf = true ↔ src.length ≠ 2048) ∧
      t.err = (if src.length = 2048 then 0 else 1) ∧ t.errInfo = 0 ∧ t.errOff = 0 ∧ t.errLen = 0 ∧
      t.einLen = 0 ∧ t.txtLen = 0 ∧ t.eoutLen = 0 ∧ t.mcount = 0 ∧
      (∀ i : Fin 24, t.midx.get i = 0 ∧ t.mwLen.get i = 0) ∧ (∀ x, t.mem.read x = 0) ∧ t.op = 0 ∧
      (src.length = 2048 → t.vf = src)

/-- R171: a reset while busy abandons the operation: the completion never happens, and a turn of the engine after it
changes nothing. The equality is of whole states, so it also says what the model chose: that what the host last read
and the rest of the schedule stay (log 1, 3), that `VF` is the empty list after a word list of the wrong count (log 5),
and that the presented list is recorded as fitting (log 10). -/
def Obligations.ResetAbandonsTheOperation : Prop :=
  ∀ (s : State) (src : List VWord) (rest : List Event), s.ConfigWf → s.params.Fits src → s.busy = true →
    s.pending = .reset src :: .engine :: rest →
    Sys2Proof.core.run 2 s =
      .next { State.resetOf { params := s.params, vocabSrc := src } with rdata := s.rdata, pending := rest }

/-- Every well-formed configuration's reset state satisfies the invariant, the model's own reset state among them. -/
def Obligations.ResetStatesSatisfyTheInvariant : Prop :=
  (∀ c : Config, c.Wf → Inv (State.resetOf c)) ∧ Inv State.reset

/-! Invariants and whole-machine rules. -/

/-- Every step keeps the invariant, from every state that has it. -/
def Obligations.StepKeepsTheInvariant : Prop :=
  ∀ s t : State, Inv s → step s = .next t → Inv t

/-- R30 in every reachable state, under every well-formed configuration (an ill-formed one has no reachable state) and
every schedule of events. -/
def Obligations.ReachableStatesMeetR30 : Prop :=
  ∀ (c : Config) (s : State), Reachable c s → R30 s

/-- In a state of the invariant a step never faults, and it is refused only for a record that is no transaction or for a
word list that does not fit: the block is never stuck. -/
def Obligations.InvariantStatesNeverGetStuck : Prop :=
  ∀ s : State, Inv s →
    (∃ t, step s = .next t) ∨
    (∃ r rest, s.pending = .host r :: rest ∧ decode (.host r) = .error .readDataNotZero ∧
      step s = .refused .malformedRecord) ∨
    (∃ src rest, s.pending = .reset src :: rest ∧ ¬ s.params.Fits src ∧ step s = .refused .illFormedConfiguration)

/-- The engine never writes an input: a step that is neither a host transaction nor a reset leaves `EIN_LEN`, `TXT_LEN`,
`EIN` and `TXT` as they were (R16, R17, R20, R24). -/
def Obligations.EngineNeverWritesAnInput : Prop :=
  ∀ s t : State, step s = .next t → ¬ NextIsHost s → ¬ NextIsReset s → SameInputs s t ∧ SameVocabulary s t

/-- Only the completion or a reset ends an operation (R143, R171), and only a completion sets `DONE`. -/
def Obligations.OnlyCompletionOrResetEndsAnOperation : Prop :=
  ∀ s t : State, step s = .next t →
    (s.busy = true → t.busy = false → NextIsReset s ∨ ¬ NextIsHost s) ∧
    (s.done = false → t.done = true → s.busy = true ∧ ¬ NextIsHost s ∧ ¬ NextIsReset s)

/-- R143: the engine's step is enabled exactly when `BUSY` = 1, dispatches on `OP`, and ends with `BUSY` 0, `DONE` 1,
`OP` 0, so that it disables itself. -/
def Obligations.CompletionEndsTheOperation : Prop :=
  ∀ s : State,
    (s.busy = false → engineTurn s = .next s) ∧
    (s.busy = true → engineTurn s = complete s) ∧
    (s.op = 1 → complete s = .next (encodeComplete s)) ∧
    (s.op = 2 → complete s = .next (decodeComplete s)) ∧
    (∀ t, complete s = .next t → t.busy = false ∧ t.done = true ∧ t.op = 0 ∧ engineTurn t = .next t)

/-- R143, R180: an enabled completion is taken. With any number of host transactions still to come, the operation in
progress is complete one step after the last of them. That the engine has its turn when nothing else is pending is the
model's choice (log 2). -/
def Obligations.EnabledCompletionIsTaken : Prop :=
  ∀ (s : State) (is : List Instr), Inv s → s.busy = true →
    s.pending = is.map (fun i => Event.host (encode i).asRecord) →
    ∃ t, Sys2Proof.core.run (is.length + 1) s = .next t ∧ t.busy = false ∧ t.done = true ∧ t.op = 0

/-- A command and its completion in a run: from an idle block the host's command record and then the engine's turn give
the completion's state, reached through the start (R141, R143). -/
def Obligations.CommandThenEngineTurnCompletes : Prop :=
  ∀ (s : State) (rest : List Event), s.ConfigWf → s.busy = false →
    (s.pending = .host (encode .encode).asRecord :: .engine :: rest →
      Sys2Proof.core.run 2 s =
        .next (encodeComplete { s with op := 1, busy := true, done := false, pending := rest })) ∧
    (s.pending = .host (encode .decode).asRecord :: .engine :: rest →
      Sys2Proof.core.run 2 s =
        .next (decodeComplete { s with op := 2, busy := true, done := false, pending := rest }))

/-- R8: what ENCODE produces depends on `EIN_LEN`, `EIN[0..EIN_LEN)` and the vocabulary only. -/
def Obligations.EncodeIsAFunctionOfItsInputs : Prop :=
  ∀ s t : State, Inv s → Inv t → s.busy = true → t.busy = true → s.op = 1 → t.op = 1 →
    SameVocabulary s t → t.einLen = s.einLen →
    (∀ i, i < s.einLen.toNat → i < 32 → t.mem.read (einBase + i) = s.mem.read (einBase + i)) →
    ∃ s' t', complete s = .next s' ∧ complete t = .next t' ∧ SameMnemonic s' t' ∧ SameReport s' t' ∧
      t'.statusWord = s'.statusWord

/-- R8: what DECODE produces depends on `TXT_LEN`, `TXT[0..TXT_LEN)` and the vocabulary only. -/
def Obligations.DecodeIsAFunctionOfItsInputs : Prop :=
  ∀ s t : State, Inv s → Inv t → s.busy = true → t.busy = true → s.op = 2 → t.op = 2 →
    SameVocabulary s t → t.txtLen = s.txtLen →
    (∀ k, k < s.txtLen.toNat → k < s.params.txtCap → t.mem.read (txtBase + k) = s.mem.read (txtBase + k)) →
    ∃ s' t', complete s = .next s' ∧ complete t = .next t' ∧ SameEntropy s' t' ∧ SameReport s' t' ∧
      t'.statusWord = s'.statusWord

/-- R12, R65: the four flags at their bits, 0 above them, and only eight readings in a state of the invariant. -/
def Obligations.StatusReadsItsFlags : Prop :=
  ∀ s : State,
    (memRead s 0x0001#16).toNat =
      s.vok.toNat * 8 + s.errf.toNat * 4 + s.done.toNat * 2 + s.busy.toNat ∧
    (Inv s → (memRead s 0x0001#16).toNat ∈ [0x4, 0x5, 0x6, 0x8, 0x9, 0xA, 0xD, 0xE])

/-! Length arithmetic, SHA-256, checksum. -/

/-- R94: the table of the five legal sizes, column by column, and the formula at the other counts. -/
def Obligations.LegalSizesFollowTheTable : Prop :=
  [16, 20, 24, 28, 32].map (fun l =>
      let n := wordCount (entropyBits l)
      [entropyBits l, checksumBits (entropyBits l), entropyBits l + checksumBits (entropyBits l), n,
        n * 11, n * 11 / 32, messageLengthForWordCount n, messageLengthForWordCount n / 32]) =
    [[128, 4, 132, 12, 132, 4, 128, 4], [160, 5, 165, 15, 165, 5, 160, 5], [192, 6, 198, 18, 198, 6, 192, 6],
     [224, 7, 231, 21, 231, 7, 224, 7], [256, 8, 264, 24, 264, 8, 256, 8]] ∧
  [0, 1, 2, 3, 4, 5, 6, 7, 8, 9, 10, 11, 13, 14, 16, 17, 19, 20, 22, 23, 25, 26, 27].map messageLengthForWordCount =
    [0, 0, 0, 32, 32, 32, 64, 64, 64, 96, 96, 96, 128, 128, 160, 160, 192, 192, 224, 224, 256, 256, 288]

/-- R95: a message of at most 55 bytes is padded to exactly one 64-byte block: the message, 0x80, zeros, the bit length
big-endian in 8 bytes; the first sixteen schedule words are its big-endian words. -/
def Obligations.PaddedMessageIsOneBlock : Prop :=
  ∀ msg : List Byte, msg.length ≤ 55 →
    (shaPad msg).length = 64 ∧ (shaPad msg).take msg.length = msg ∧
    (shaPad msg).getD msg.length 0 = 0x80 ∧
    (∀ k, msg.length < k → k < 56 → (shaPad msg).getD k 0 = 0) ∧
    be ((shaPad msg).drop 56) = 8 * msg.length ∧
    ∀ t, t < 16 → (messageSchedule (shaPad msg)).getD t 0 =
      BitVec.ofNat 32 (be (((shaPad msg).drop (4 * t)).take 4))

/-- R98: the message schedule recurrence, for every word from 16 to 63. -/
def Obligations.ScheduleFollowsTheRecurrence : Prop :=
  ∀ (block : List Byte) (t : Nat), 16 ≤ t → t < 64 →
    let w := fun k => (messageSchedule block).getD k 0
    let rotr := fun (x : Word32) (n : Nat) => (x >>> n) ||| (x <<< (32 - n))
    w t = w (t - 16) + (rotr (w (t - 15)) 7 ^^^ rotr (w (t - 15)) 18 ^^^ (w (t - 15) >>> 3)) + w (t - 7) +
      (rotr (w (t - 2)) 17 ^^^ rotr (w (t - 2)) 19 ^^^ (w (t - 2) >>> 10))

/-- The digests the spec gives: sixteen zero bytes and "abc" (R100, V-S1, V-S6). -/
def Obligations.DigestsOfTheSpecComeOut : Prop :=
  be (sha256 (List.replicate 16 0)) = 0x374708fff7719dd5979ec875d56cd2286f6d3cf7ec317a3b25632aab28ec37bb ∧
  be (sha256 [0x61, 0x62, 0x63]) = 0xba7816bf8f01cfea414140de5dae2223b00361a396177a9cb410ff61f20015ad

/-- R101: the checksum is the first digest byte shifted right by `8 − cs`, a `cs`-bit value. -/
def Obligations.ChecksumIsTheTopOfTheDigest : Prop :=
  ∀ e : List Byte, e.length ∈ [16, 20, 24, 28, 32] →
    (sha256 e).length = 32 ∧
    checksum e = ((sha256 e).getD 0 0).toNat >>> (8 - 8 * e.length / 32) ∧
    checksum e < 2 ^ (8 * e.length / 32)

/-! Refusals. -/

/-- R6: an ill-formed configuration has no meaning. Ill-formed parameters refuse every step; so does a word list with an
entry longer than `WORD_MAX`, of whatever count, from its reset state under every schedule and in every state that
records one; a reset event that presents one is refused; and no state is reachable. That the refusal is the step's, in
this form, is the model's choice (log 10). -/
def Obligations.IllFormedConfigurationsAreRefused : Prop :=
  (∀ (c : Config) (w : VWord), w ∈ c.vocabSrc → c.params.wordMax < w.length →
    (∀ events, step { State.resetOf c with pending := events } = .refused .illFormedConfiguration) ∧
    ∀ s, ¬ Reachable c s) ∧
  ∀ s : State,
    (s.srcFits = false → step s = .refused .illFormedConfiguration) ∧
    (¬ (1 ≤ s.params.wordMax ∧ s.params.wordMax ≤ 31 ∧ 24 * s.params.wordMax + 23 ≤ s.params.txtCap ∧
        s.params.txtCap ≤ 4096 ∧ (0x20 : Byte) ∈ s.params.ws) → step s = .refused .illFormedConfiguration) ∧
    (∀ src rest w, s.pending = .reset src :: rest → w ∈ src → s.params.wordMax < w.length →
      step s = .refused .illFormedConfiguration)

/-- R60: a record with `w` = 0 and a data field other than 0 is no transaction; the model refuses it (log 9). -/
def Obligations.MalformedRecordsAreRefused : Prop :=
  ∀ (s : State) (a : Addr) (d : Word32) (rest : List Event), s.ConfigWf → d ≠ 0#32 →
    s.pending = .host (record 0#1 a d) :: rest → step s = .refused .malformedRecord
end

