-- ==== Sys2Proof/Laws/BitString.lean ====
section
/-! SUPPORT. The laws of the data format: big-endian values and byte strings are inverse, a bit string and its 11-bit
groups are inverse, and bounds. -/

namespace Sys2Proof.Machine

theorem be_foldl (l : List Byte) (v : Nat) :
    l.foldl (fun v b => v * 256 + b.toNat) v = v * 256 ^ l.length + be l := by
  induction l generalizing v with
  | nil => simp [be]
  | cons b l ih =>
    have hb : be (b :: l) = l.foldl (fun v b => v * 256 + b.toNat) (0 * 256 + b.toNat) := rfl
    rw [List.foldl_cons, ih, hb, ih, List.length_cons]
    ring

@[simp] theorem be_nil : be [] = 0 := rfl

theorem be_cons (b : Byte) (l : List Byte) : be (b :: l) = b.toNat * 256 ^ l.length + be l := by
  have := be_foldl l (0 * 256 + b.toNat)
  simpa [be] using this

theorem be_append (l l' : List Byte) : be (l ++ l') = be l * 256 ^ l'.length + be l' := by
  induction l with
  | nil => simp
  | cons b l ih => rw [List.cons_append, be_cons, be_cons, ih, List.length_append]; ring

theorem be_lt (l : List Byte) : be l < 256 ^ l.length := by
  induction l with
  | nil => simp
  | cons b l ih =>
    rw [be_cons, List.length_cons, pow_succ]
    have hb : b.toNat < 256 := b.isLt
    calc b.toNat * 256 ^ l.length + be l < b.toNat * 256 ^ l.length + 256 ^ l.length := by omega
      _ = (b.toNat + 1) * 256 ^ l.length := by ring
      _ ≤ 256 * 256 ^ l.length := Nat.mul_le_mul_right _ hb
      _ = 256 ^ l.length * 256 := by ring

@[simp] theorem toBytes_length (v n : Nat) : (toBytes v n).length = n := by simp [toBytes]

/-- Byte `k` of `n` is `v / 256^(n−1−k)` modulo 256. -/
theorem toBytes_getElem (v n k : Nat) (h : k < (toBytes v n).length) :
    (toBytes v n)[k] = BitVec.ofNat 8 (v / 256 ^ (n - 1 - k)) := by
  have h255 : ∀ x : Nat, x &&& 255 = x % 256 := fun x => Nat.and_two_pow_sub_one_eq_mod x 8
  simp only [toBytes, List.getElem_map, List.getElem_range, Nat.shiftRight_eq_div_pow, h255]
  rw [show (2 : Nat) ^ (8 * (n - 1 - k)) = 256 ^ (n - 1 - k) by rw [pow_mul]; norm_num]
  apply BitVec.eq_of_toNat_eq
  simp

theorem toBytes_succ (v n : Nat) : toBytes v (n + 1) = BitVec.ofNat 8 (v / 256 ^ n) :: toBytes v n := by
  apply List.ext_getElem (by simp)
  intro k h1 h2
  cases k with
  | zero => rw [toBytes_getElem]; simp
  | succ k =>
    rw [toBytes_getElem, List.getElem_cons_succ, toBytes_getElem]
    congr 3
    omega

/-- The value of the bytes of `v` is `v` modulo 256^n. -/
theorem be_toBytes_mod (v n : Nat) : be (toBytes v n) = v % 256 ^ n := by
  induction n with
  | zero => simp [toBytes, Nat.mod_one]
  | succ n ih =>
    have hm := Nat.mod_mul (x := v) (a := 256 ^ n) (b := 256)
    rw [toBytes_succ, be_cons, ih, toBytes_length, BitVec.toNat_ofNat, pow_succ 256 n, hm]
    ring

theorem be_toBytes {v n : Nat} (h : v < 256 ^ n) : be (toBytes v n) = v := by
  rw [be_toBytes_mod, Nat.mod_eq_of_lt h]

/-- Two byte strings of one length with one value are equal. -/
theorem be_injective {l l' : List Byte} (hl : l.length = l'.length) (h : be l = be l') : l = l' := by
  induction l generalizing l' with
  | nil => exact (List.length_eq_zero_iff.1 hl.symm).symm
  | cons b l ih =>
    cases l' with
    | nil => simp at hl
    | cons b' l' =>
      simp only [List.length_cons, Nat.add_right_cancel_iff] at hl
      rw [be_cons, be_cons, hl] at h
      have h1 := be_lt l
      have h2 := be_lt l'
      rw [hl] at h1
      have hp : 0 < 256 ^ l'.length := by positivity
      have hb : b.toNat = b'.toNat := by
        have e1 := Nat.div_eq_of_lt h1
        have e2 := Nat.div_eq_of_lt h2
        have := congrArg (· / 256 ^ l'.length) h
        simpa [Nat.add_comm (_ * _), Nat.add_mul_div_right _ _ hp, e1, e2] using this
      have hbe : be l = be l' := by rw [hb] at h; omega
      rw [BitVec.eq_of_toNat_eq hb, ih hl hbe]

/-- The bytes of the value of a byte string are the byte string. -/
theorem toBytes_be (l : List Byte) : toBytes (be l) l.length = l :=
  be_injective (by simp) (be_toBytes (be_lt l))

theorem group_eq (v n i : Nat) : group v n i = v / 2048 ^ (n - 1 - i) % 2048 := by
  unfold group
  rw [show (0x7FF : Nat) = 2 ^ 11 - 1 by norm_num, Nat.and_two_pow_sub_one_eq_mod, Nat.shiftRight_eq_div_pow, pow_mul]
  norm_num

/-- A group is an 11-bit value (R67). -/
theorem group_lt (v n i : Nat) : group v n i < 2048 := by
  rw [group_eq]; exact Nat.mod_lt _ (by norm_num)

@[simp] theorem groups_length (v n : Nat) : (groups v n).length = n := by simp [groups]

theorem groups_getElem (v n i : Nat) (h : i < (groups v n).length) : (groups v n)[i] = group v n i := by
  simp [groups]

theorem groups_getD (v n i : Nat) (h : i < n) : (groups v n).getD i 0 = group v n i := by
  simp [groups, h]

theorem mem_groups_lt {v n g : Nat} (h : g ∈ groups v n) : g < 2048 := by
  simp only [groups, List.mem_map, List.mem_range] at h
  obtain ⟨i, _, rfl⟩ := h
  exact group_lt v n i

theorem groups_succ (v n : Nat) : groups v (n + 1) = v / 2048 ^ n % 2048 :: groups v n := by
  apply List.ext_getElem (by simp)
  intro k h1 h2
  cases k with
  | zero => rw [groups_getElem, group_eq]; simp
  | succ k =>
    rw [groups_getElem, List.getElem_cons_succ, groups_getElem, group_eq, group_eq]
    congr 3
    omega

@[simp] theorem packIndices_nil : packIndices [] = 0 := rfl

theorem packIndices_cons (i : Nat) (l : List Nat) : packIndices (i :: l) = i * 2048 ^ l.length + packIndices l := by
  rw [packIndices, pow_mul]; norm_num

theorem packIndices_lt {l : List Nat} (h : ∀ i ∈ l, i < 2048) : packIndices l < 2048 ^ l.length := by
  induction l with
  | nil => simp
  | cons i l ih =>
    have hi := h i (List.mem_cons_self ..)
    have hl := ih fun j hj => h j (List.mem_cons_of_mem _ hj)
    rw [packIndices_cons, List.length_cons, pow_succ]
    calc i * 2048 ^ l.length + packIndices l < i * 2048 ^ l.length + 2048 ^ l.length := by omega
      _ = (i + 1) * 2048 ^ l.length := by ring
      _ ≤ 2048 * 2048 ^ l.length := Nat.mul_le_mul_right _ hi
      _ = 2048 ^ l.length * 2048 := by ring

theorem packIndices_append (l l' : List Nat) :
    packIndices (l ++ l') = packIndices l * 2048 ^ l'.length + packIndices l' := by
  induction l with
  | nil => simp
  | cons i l ih => rw [List.cons_append, packIndices_cons, packIndices_cons, ih, List.length_append]; ring

/-- Packing the `n` groups of a bit string gives it back, modulo 2048^n. -/
theorem packIndices_groups_mod (v n : Nat) : packIndices (groups v n) = v % 2048 ^ n := by
  induction n with
  | zero => simp [groups, Nat.mod_one]
  | succ n ih => rw [groups_succ, packIndices_cons, ih, groups_length, pow_succ, Nat.mod_mul]; ring

theorem packIndices_groups {v n : Nat} (h : v < 2048 ^ n) : packIndices (groups v n) = v := by
  rw [packIndices_groups_mod, Nat.mod_eq_of_lt h]

/-- Two index lists of one length that pack alike are equal. -/
theorem packIndices_injective {l l' : List Nat} (hl : l.length = l'.length) (h : ∀ i ∈ l, i < 2048)
    (h' : ∀ i ∈ l', i < 2048) (e : packIndices l = packIndices l') : l = l' := by
  induction l generalizing l' with
  | nil => exact (List.length_eq_zero_iff.1 hl.symm).symm
  | cons i l ih =>
    cases l' with
    | nil => simp at hl
    | cons j l' =>
      simp only [List.length_cons, Nat.add_right_cancel_iff] at hl
      have hm := fun k hk => h k (List.mem_cons_of_mem i hk)
      have hm' := fun k hk => h' k (List.mem_cons_of_mem j hk)
      rw [packIndices_cons, packIndices_cons, hl] at e
      have h1 := packIndices_lt hm
      have h2 := packIndices_lt hm'
      rw [hl] at h1
      have hp : 0 < 2048 ^ l'.length := by positivity
      have hij : i = j := by
        have e1 := Nat.div_eq_of_lt h1
        have e2 := Nat.div_eq_of_lt h2
        have := congrArg (· / 2048 ^ l'.length) e
        simpa [Nat.add_comm (_ * _), Nat.add_mul_div_right _ _ hp, e1, e2] using this
      have hpk : packIndices l = packIndices l' := by rw [hij] at e; omega
      rw [hij, ih hl hm hm' hpk]

/-- The groups of packed indices are the indices. -/
theorem groups_packIndices {l : List Nat} (h : ∀ i ∈ l, i < 2048) : groups (packIndices l) l.length = l :=
  packIndices_injective (by simp) (fun _ hi => mem_groups_lt hi) h (packIndices_groups (packIndices_lt h))

/-- The bits of a big-endian value are the bits of its bytes, most significant first. -/
theorem testBit_be {l : List Byte} {p : Nat} (h : p < 8 * l.length) :
    (be l).testBit (8 * l.length - 1 - p) = (l.getD (p / 8) 0).getLsbD (7 - p % 8) := by
  induction l generalizing p with
  | nil => simp at h
  | cons b l ih =>
    rw [List.length_cons] at h
    have hb : be (b :: l) = 2 ^ (8 * l.length) * b.toNat + be l := by
      rw [be_cons, pow_mul]; norm_num; ring
    have hlt : be l < 2 ^ (8 * l.length) := by rw [pow_mul]; exact be_lt l
    rw [hb, Nat.testBit_two_pow_mul_add _ hlt, List.length_cons]
    by_cases hp : p < 8
    · rw [if_neg (by omega), show p / 8 = 0 by omega, List.getD_cons_zero,
        show 8 * (l.length + 1) - 1 - p - 8 * l.length = 7 - p % 8 by omega]
      rfl
    · obtain ⟨q, rfl⟩ : ∃ q, p = q + 8 := ⟨p - 8, by omega⟩
      rw [if_pos (by omega), show (q + 8) / 8 = q / 8 + 1 by omega, List.getD_cons_succ,
        show (q + 8) % 8 = q % 8 by omega, ← ih (by omega)]
      congr 1
      omega

/-- The positions of R112's second form are the bits of the bit string, from its top. -/
theorem mnemonicBit_eq {e : List Byte} {cs c p : Nat} (hc : c < 2 ^ cs) (hp : p < 8 * e.length + cs) :
    mnemonicBit e cs c p = (bitString e cs c).testBit (8 * e.length + cs - 1 - p) := by
  have hV : bitString e cs c = 2 ^ cs * be e + c := by rw [bitString, Nat.mul_comm]
  rw [hV, Nat.testBit_two_pow_mul_add _ hc, mnemonicBit]
  by_cases h : p < 8 * e.length
  · rw [if_pos h, if_neg (by omega), ← testBit_be h]
    congr 1; omega
  · rw [if_neg h, if_pos (by omega)]
    congr 1; omega

/-- A number below `2^n` is the sum of its bits, most significant first. -/
theorem sum_bits (n x : Nat) :
    ((List.range n).map fun k => (x.testBit (n - 1 - k)).toNat * 2 ^ (n - 1 - k)).sum = x % 2 ^ n := by
  induction n with
  | zero => simp [Nat.mod_one]
  | succ n ih =>
    rw [List.range_succ_eq_map, List.map_cons, List.sum_cons, List.map_map, pow_succ, Nat.mod_mul, ← ih, Nat.toNat_testBit]
    rw [show n + 1 - 1 - 0 = n by omega, Nat.add_comm, Nat.mul_comm]
    congr 2
    apply List.map_congr_left
    intro k hk
    rw [Function.comp, show n + 1 - 1 - (k + 1) = n - 1 - k by omega]

end Sys2Proof.Machine
end

