-- ==== Sys2Proof/Laws/Memory.lean ====
section
/-! SUPPORT. The laws of memory: what a byte reads as after every memory operation, that each operation keeps the
canonical form, and that canonical memories that read alike are equal. -/

namespace Sys2Proof.Machine

namespace Memory

@[simp] theorem read_nil (a : Nat) : Memory.read [] a = 0 := rfl

theorem read_cons (c : Host.Cell) (m : Memory) (a : Nat) :
    Memory.read (c :: m) a = if c.1 = a then c.2 else Memory.read m a := rfl

theorem wfFrom_cons (lo : Nat) (c : Host.Cell) (m : Memory) :
    Memory.wfFrom lo (c :: m) = true ↔ lo ≤ c.1 ∧ c.2 ≠ 0 ∧ Memory.wfFrom (c.1 + 1) m = true := by
  simp [Memory.wfFrom, and_assoc]

theorem wfFrom_mono {lo lo' : Nat} (h : lo' ≤ lo) {m : Memory} (hm : Memory.wfFrom lo m = true) :
    Memory.wfFrom lo' m = true := by
  cases m with
  | nil => rfl
  | cons c m => rw [wfFrom_cons] at *; exact ⟨by omega, hm.2⟩

/-- A canonical memory lists nothing below its bound. -/
theorem read_below {lo : Nat} {m : Memory} (hm : Memory.wfFrom lo m = true) {a : Nat} (ha : a < lo) :
    Memory.read m a = 0 := by
  induction m generalizing lo with
  | nil => rfl
  | cons c m ih =>
    rw [wfFrom_cons] at hm
    rw [read_cons, if_neg (by omega)]
    exact ih hm.2.2 (by omega)

/-- A write leaves every other address alone. -/
theorem read_write_ne (m : Memory) {a x : Nat} (b : Byte) (h : x ≠ a) :
    (Memory.write m a b).read x = m.read x := by
  induction m with
  | nil => unfold Memory.write; split <;> simp [read_cons, Ne.symm h]
  | cons c m ih =>
    unfold Memory.write
    split
    · split <;> simp [read_cons, Ne.symm h]
    · split
      · rename_i h1 h2
        split <;> simp [read_cons, ← h2, Ne.symm h]
      · simp only [read_cons, ih]

theorem read_write_eq_from {lo : Nat} {m : Memory} (hm : Memory.wfFrom lo m = true) (a : Nat) (b : Byte) :
    (Memory.write m a b).read a = b := by
  induction m generalizing lo with
  | nil => unfold Memory.write; split <;> simp_all [read_cons]
  | cons c m ih =>
    rw [wfFrom_cons] at hm
    unfold Memory.write
    split
    · split
      · rename_i h1 h2
        rw [h2, read_cons, if_neg (by omega)]
        exact read_below hm.2.2 (by omega)
      · simp [read_cons]
    · split
      · split
        · rename_i h1 h2 h3
          rw [h3]; exact read_below hm.2.2 (by omega)
        · simp [read_cons]
      · rename_i h1 h2
        rw [read_cons, if_neg (Ne.symm h2)]
        exact ih hm.2.2

/-- A read after a write to the same address gives the value written. -/
theorem read_write_eq {m : Memory} (hm : m.wf = true) (a : Nat) (b : Byte) :
    (Memory.write m a b).read a = b := read_write_eq_from hm a b

theorem wfFrom_write {lo : Nat} {m : Memory} (hm : Memory.wfFrom lo m = true) {a : Nat} (b : Byte) (ha : lo ≤ a) :
    Memory.wfFrom lo (Memory.write m a b) = true := by
  induction m generalizing lo with
  | nil => unfold Memory.write; split <;> simp_all [Memory.wfFrom]
  | cons c m ih =>
    have hm' := (wfFrom_cons lo c m).1 hm
    unfold Memory.write
    split
    · split
      · exact hm
      · rename_i h1 h2
        rw [wfFrom_cons]
        exact ⟨ha, h2, wfFrom_mono (by simp; omega) ((wfFrom_cons c.1 c m).2 ⟨le_refl _, hm'.2⟩)⟩
    · split
      · split
        · exact wfFrom_mono (by omega) hm'.2.2
        · rename_i h1 h2 h3
          rw [wfFrom_cons]
          exact ⟨ha, h3, by rw [h2]; exact hm'.2.2⟩
      · rename_i h1 h2
        rw [wfFrom_cons]
        exact ⟨hm'.1, hm'.2.1, ih hm'.2.2 (by omega)⟩

/-- A write keeps the canonical form. -/
theorem wf_write {m : Memory} (hm : m.wf = true) (a : Nat) (b : Byte) : (Memory.write m a b).wf = true :=
  wfFrom_write hm b (Nat.zero_le a)

theorem wf_writeBytes {m : Memory} (hm : m.wf = true) (base : Nat) (bs : List Byte) :
    (Memory.writeBytes m base bs).wf = true := by
  induction bs generalizing m base with
  | nil => exact hm
  | cons b bs ih => exact ih (wf_write hm base b) (base + 1)

theorem wfFrom_clear {lo : Nat} {m : Memory} (hm : Memory.wfFrom lo m = true) (base n : Nat) :
    Memory.wfFrom lo (Memory.clear m base n) = true := by
  induction m generalizing lo with
  | nil => rfl
  | cons c m ih =>
    rw [wfFrom_cons] at hm
    have h := ih hm.2.2
    unfold Memory.clear at *
    rw [List.filter_cons]
    split
    · rw [wfFrom_cons]; exact ⟨hm.1, hm.2.1, h⟩
    · exact wfFrom_mono (by omega) h

/-- Clearing keeps the canonical form. -/
theorem wf_clear {m : Memory} (hm : m.wf = true) (base n : Nat) : (Memory.clear m base n).wf = true :=
  wfFrom_clear hm base n

/-- What a byte reads as after a range is cleared. -/
theorem read_clear (m : Memory) (base n x : Nat) :
    (Memory.clear m base n).read x = if base ≤ x ∧ x < base + n then 0 else m.read x := by
  induction m with
  | nil => simp [Memory.clear]
  | cons c m ih =>
    unfold Memory.clear at *
    rw [List.filter_cons]
    split
    · rename_i h
      rw [read_cons, read_cons, ih]
      by_cases hx : c.1 = x
      · subst hx; simp at h; rw [if_pos rfl, if_pos rfl, if_neg (by omega)]
      · rw [if_neg hx, if_neg hx]
    · rename_i h
      rw [ih, read_cons]
      by_cases hx : c.1 = x
      · subst hx; simp at h; rw [if_pos (by omega), if_pos (by omega)]
      · rw [if_neg hx]

/-- Writing a byte string leaves every address outside it alone. -/
theorem read_writeBytes_of_outside (m : Memory) (base : Nat) (bs : List Byte) {x : Nat}
    (h : x < base ∨ base + bs.length ≤ x) : (Memory.writeBytes m base bs).read x = m.read x := by
  induction bs generalizing m base with
  | nil => rfl
  | cons b bs ih =>
    simp only [List.length_cons] at h
    rw [Memory.writeBytes, ih _ _ (by omega), read_write_ne _ _ (by omega)]

/-- A byte string reads back where it was written. -/
theorem read_writeBytes {m : Memory} (hm : m.wf = true) (base : Nat) (bs : List Byte) {i : Nat} (h : i < bs.length) :
    (Memory.writeBytes m base bs).read (base + i) = bs.getD i 0 := by
  induction bs generalizing m base i with
  | nil => simp at h
  | cons b bs ih =>
    rw [Memory.writeBytes]
    cases i with
    | zero => rw [read_writeBytes_of_outside _ _ _ (by omega), Nat.add_zero, read_write_eq hm]; rfl
    | succ i =>
      rw [show base + (i + 1) = base + 1 + i by omega, ih (wf_write hm _ _) _ (by simpa using h)]
      simp

/-- Every listed address of a memory after a write was listed before or is the one written. -/
theorem mem_write {m : Memory} {a : Nat} {b : Byte} {c : Host.Cell} (h : c ∈ Memory.write m a b) :
    c ∈ m ∨ c.1 = a := by
  induction m with
  | nil => unfold Memory.write at h; split at h <;> simp_all
  | cons d m ih =>
    unfold Memory.write at h
    split at h
    · split at h
      · exact .inl h
      · rcases List.mem_cons.1 h with rfl | h
        · exact .inr rfl
        · exact .inl h
    · split at h
      · split at h
        · exact .inl (List.mem_cons_of_mem _ h)
        · rcases List.mem_cons.1 h with rfl | h
          · exact .inr rfl
          · exact .inl (List.mem_cons_of_mem _ h)
      · rcases List.mem_cons.1 h with rfl | h
        · exact .inl (List.mem_cons_self ..)
        · exact (ih h).imp (List.mem_cons_of_mem _) id

theorem mem_writeBytes {m : Memory} {base : Nat} {bs : List Byte} {c : Host.Cell}
    (h : c ∈ Memory.writeBytes m base bs) : c ∈ m ∨ base ≤ c.1 ∧ c.1 < base + bs.length := by
  induction bs generalizing m base with
  | nil => exact .inl h
  | cons b bs ih =>
    rw [Memory.writeBytes] at h
    simp only [List.length_cons]
    rcases ih h with h | h
    · rcases mem_write h with h | h
      · exact .inl h
      · exact .inr (by omega)
    · exact .inr (by omega)

theorem mem_clear {m : Memory} {base n : Nat} {c : Host.Cell} (h : c ∈ Memory.clear m base n) : c ∈ m :=
  (List.mem_filter.1 h).1

@[simp] theorem readBytes_length (m : Memory) (base n : Nat) : (m.readBytes base n).length = n := by
  simp [Memory.readBytes]

theorem readBytes_getD (m : Memory) (base n : Nat) {i : Nat} (h : i < n) :
    (m.readBytes base n).getD i 0 = m.read (base + i) := by
  simp [Memory.readBytes, h]

/-- Two memories that agree on a range give the same byte string there. -/
theorem readBytes_congr {m m' : Memory} {base n : Nat} (h : ∀ i, i < n → m.read (base + i) = m'.read (base + i)) :
    m.readBytes base n = m'.readBytes base n := by
  unfold Memory.readBytes
  exact List.map_congr_left fun i hi => h i (List.mem_range.1 hi)

theorem readBytes_writeBytes {m : Memory} (hm : m.wf = true) (base : Nat) (bs : List Byte) :
    (Memory.writeBytes m base bs).readBytes base bs.length = bs := by
  apply List.ext_getElem (by simp)
  intro i h1 h2
  have := read_writeBytes hm base bs (i := i) h2
  simp only [Memory.readBytes, List.getElem_map, List.getElem_range, this]
  simp [h2]

theorem eq_of_read_eq_from {lo : Nat} {m m' : Memory} (hm : Memory.wfFrom lo m = true)
    (hm' : Memory.wfFrom lo m' = true) (h : ∀ a, m.read a = m'.read a) : m = m' := by
  induction m generalizing lo m' with
  | nil =>
    cases m' with
    | nil => rfl
    | cons c m' =>
      have := h c.1
      rw [wfFrom_cons] at hm'
      simp only [read_nil, read_cons, if_true] at this
      exact absurd this.symm hm'.2.1
  | cons c m ih =>
    have hc := (wfFrom_cons lo c m).1 hm
    cases m' with
    | nil =>
      have := h c.1
      simp only [read_nil, read_cons, if_true] at this
      exact absurd this hc.2.1
    | cons d m' =>
      have hd := (wfFrom_cons lo d m').1 hm'
      have e : c.1 = d.1 := by
        rcases Nat.lt_trichotomy c.1 d.1 with hlt | heq | hgt
        · have := h c.1
          rw [read_cons, if_pos rfl, read_cons, if_neg (by omega), read_below hd.2.2 (by omega)] at this
          exact absurd this hc.2.1
        · exact heq
        · have := h d.1
          rw [read_cons, if_neg (by omega), read_cons, if_pos rfl, read_below hc.2.2 (by omega)] at this
          exact absurd this.symm hd.2.1
      have e2 : c.2 = d.2 := by
        have := h c.1
        rwa [read_cons, if_pos rfl, read_cons, if_pos e.symm] at this
      have hcd : c = d := Prod.ext e e2
      subst hcd
      congr 1
      refine ih hc.2.2 hd.2.2 fun a => ?_
      have := h a
      rw [read_cons, read_cons] at this
      by_cases ha : c.1 = a
      · subst ha; rw [read_below hc.2.2 (by omega), read_below hd.2.2 (by omega)]
      · rwa [if_neg ha, if_neg ha] at this

/-- Canonical memories that read alike at every address are equal. -/
theorem eq_of_read_eq {m m' : Memory} (hm : m.wf = true) (hm' : m'.wf = true) (h : ∀ a, m.read a = m'.read a) :
    m = m' := eq_of_read_eq_from hm hm' h

end Memory

end Sys2Proof.Machine
end

