-- ==== Sys2Proof/Laws/Sha256.lean ====
section
/-! SUPPORT. Sizes in the length arithmetic and in SHA-256, the schedule as a recurrence (41_checksum_sha256.md R98),
and the bound on a checksum (R101). -/

namespace Sys2Proof.Machine

/-- A legal entropy length is one of five numbers. -/
theorem mem_entLens {n : Nat} : n ∈ entLens ↔ n = 16 ∨ n = 20 ∨ n = 24 ∨ n = 28 ∨ n = 32 := by
  simp [entLens]

/-- A legal word count is one of five numbers. -/
theorem mem_wordCounts {n : Nat} : n ∈ wordCounts ↔ n = 12 ∨ n = 15 ∨ n = 18 ∨ n = 21 ∨ n = 24 := by
  simp [wordCounts]

/-- The padded message is one 64-byte block (R95). -/
theorem shaPad_length {msg : List Byte} (h : msg.length ≤ 55) : (shaPad msg).length = 64 := by
  simp [shaPad]; omega

@[simp] theorem scheduleFrom_length (n : Nat) (w : List Word32) : (scheduleFrom n w).length = n + w.length := by
  induction n with
  | zero => simp [scheduleFrom]
  | succ n ih => simp [scheduleFrom, ih]; omega

@[simp] theorem messageWords_length (b : List Byte) : (messageWords b).length = 16 := by simp [messageWords]

@[simp] theorem messageSchedule_length (b : List Byte) : (messageSchedule b).length = 64 := by
  simp [messageSchedule]

/-- The older part of a schedule is an earlier schedule. -/
theorem scheduleFrom_drop (n k : Nat) (w : List Word32) : (scheduleFrom (n + k) w).drop k = scheduleFrom n w := by
  induction k with
  | zero => simp
  | succ k ih => rw [← Nat.add_assoc, scheduleFrom, List.drop_succ_cons, ih]

@[simp] theorem be32_length (w : Word32) : (be32 w).length = 4 := by simp [be32]

@[simp] theorem sha256_length (msg : List Byte) : (sha256 msg).length = 32 := by
  simp [sha256, digestWords, shaH0]

/-- The first digest byte is the top byte of the first digest word (R100). -/
theorem sha256_head (msg : List Byte) :
    ((sha256 msg).getD 0 0).toNat = ((0x6a09e667 : Word32) + (shaFinal msg).a).toNat >>> 24 := by
  have h := ((0x6a09e667 : Word32) + (shaFinal msg).a).isLt
  have h255 : ∀ x : Nat, x &&& 255 = x % 256 := fun x => Nat.and_two_pow_sub_one_eq_mod x 8
  simp only [sha256, digestWords, shaH0, List.zipWith_cons_cons, List.flatMap_cons, be32, toBytes]
  simp only [List.range_succ, List.range_zero, List.map_nil, List.map_cons, List.nil_append,
    List.cons_append, List.getD_cons_zero, BitVec.toNat_ofNat, h255]
  rw [show 8 * (4 - 1 - 0) = 24 by norm_num, Nat.shiftRight_eq_div_pow]
  omega

/-- The checksum of a legal entropy has `cs` bits (R101). -/
theorem checksum_lt {e : List Byte} (h : e.length ∈ entLens) :
    checksum e < 2 ^ checksumBits (entropyBits e.length) := by
  have hb : ((sha256 e).getD 0 0).toNat < 256 := BitVec.isLt _
  rw [mem_entLens] at h
  unfold checksum checksumBits entropyBits
  dsimp only
  rw [Nat.shiftRight_eq_div_pow]
  rcases h with h | h | h | h | h <;> rw [h] <;> norm_num <;> omega

end Sys2Proof.Machine
end

