-- ==== Sys2Proof/Laws/State.lean ====
section
/-! SUPPORT. One lemma per field for each update of the state, true by rfl, so that no later proof unfolds a record
update. -/

namespace Sys2Proof.Machine

@[simp] theorem start_params (c : BitVec 2) (s : State) : (start c s).params = s.params := rfl
@[simp] theorem start_srcFits (c : BitVec 2) (s : State) : (start c s).srcFits = s.srcFits := rfl
@[simp] theorem start_busy (c : BitVec 2) (s : State) : (start c s).busy = true := rfl
@[simp] theorem start_done (c : BitVec 2) (s : State) : (start c s).done = false := rfl
@[simp] theorem start_errf (c : BitVec 2) (s : State) : (start c s).errf = s.errf := rfl
@[simp] theorem start_vok (c : BitVec 2) (s : State) : (start c s).vok = s.vok := rfl
@[simp] theorem start_err (c : BitVec 2) (s : State) : (start c s).err = s.err := rfl
@[simp] theorem start_errInfo (c : BitVec 2) (s : State) : (start c s).errInfo = s.errInfo := rfl
@[simp] theorem start_errOff (c : BitVec 2) (s : State) : (start c s).errOff = s.errOff := rfl
@[simp] theorem start_errLen (c : BitVec 2) (s : State) : (start c s).errLen = s.errLen := rfl
@[simp] theorem start_einLen (c : BitVec 2) (s : State) : (start c s).einLen = s.einLen := rfl
@[simp] theorem start_txtLen (c : BitVec 2) (s : State) : (start c s).txtLen = s.txtLen := rfl
@[simp] theorem start_eoutLen (c : BitVec 2) (s : State) : (start c s).eoutLen = s.eoutLen := rfl
@[simp] theorem start_mcount (c : BitVec 2) (s : State) : (start c s).mcount = s.mcount := rfl
@[simp] theorem start_midx (c : BitVec 2) (s : State) : (start c s).midx = s.midx := rfl
@[simp] theorem start_mwLen (c : BitVec 2) (s : State) : (start c s).mwLen = s.mwLen := rfl
@[simp] theorem start_mem (c : BitVec 2) (s : State) : (start c s).mem = s.mem := rfl
@[simp] theorem start_op (c : BitVec 2) (s : State) : (start c s).op = c := rfl
@[simp] theorem start_vf (c : BitVec 2) (s : State) : (start c s).vf = s.vf := rfl
@[simp] theorem start_rdata (c : BitVec 2) (s : State) : (start c s).rdata = s.rdata := rfl
@[simp] theorem start_pending (c : BitVec 2) (s : State) : (start c s).pending = s.pending := rfl

@[simp] theorem reportSuccess_params (s : State) : (reportSuccess s).params = s.params := rfl
@[simp] theorem reportSuccess_srcFits (s : State) : (reportSuccess s).srcFits = s.srcFits := rfl
@[simp] theorem reportSuccess_busy (s : State) : (reportSuccess s).busy = false := rfl
@[simp] theorem reportSuccess_done (s : State) : (reportSuccess s).done = true := rfl
@[simp] theorem reportSuccess_errf (s : State) : (reportSuccess s).errf = false := rfl
@[simp] theorem reportSuccess_vok (s : State) : (reportSuccess s).vok = s.vok := rfl
@[simp] theorem reportSuccess_err (s : State) : (reportSuccess s).err = 0 := rfl
@[simp] theorem reportSuccess_errInfo (s : State) : (reportSuccess s).errInfo = 0 := rfl
@[simp] theorem reportSuccess_errOff (s : State) : (reportSuccess s).errOff = 0 := rfl
@[simp] theorem reportSuccess_errLen (s : State) : (reportSuccess s).errLen = 0 := rfl
@[simp] theorem reportSuccess_einLen (s : State) : (reportSuccess s).einLen = s.einLen := rfl
@[simp] theorem reportSuccess_txtLen (s : State) : (reportSuccess s).txtLen = s.txtLen := rfl
@[simp] theorem reportSuccess_eoutLen (s : State) : (reportSuccess s).eoutLen = s.eoutLen := rfl
@[simp] theorem reportSuccess_mcount (s : State) : (reportSuccess s).mcount = s.mcount := rfl
@[simp] theorem reportSuccess_midx (s : State) : (reportSuccess s).midx = s.midx := rfl
@[simp] theorem reportSuccess_mwLen (s : State) : (reportSuccess s).mwLen = s.mwLen := rfl
@[simp] theorem reportSuccess_mem (s : State) : (reportSuccess s).mem = s.mem := rfl
@[simp] theorem reportSuccess_op (s : State) : (reportSuccess s).op = 0 := rfl
@[simp] theorem reportSuccess_vf (s : State) : (reportSuccess s).vf = s.vf := rfl
@[simp] theorem reportSuccess_rdata (s : State) : (reportSuccess s).rdata = s.rdata := rfl
@[simp] theorem reportSuccess_pending (s : State) : (reportSuccess s).pending = s.pending := rfl

@[simp] theorem reportFailure_params (f : Failure) (s : State) : (reportFailure f s).params = s.params := rfl
@[simp] theorem reportFailure_srcFits (f : Failure) (s : State) : (reportFailure f s).srcFits = s.srcFits := rfl
@[simp] theorem reportFailure_busy (f : Failure) (s : State) : (reportFailure f s).busy = false := rfl
@[simp] theorem reportFailure_done (f : Failure) (s : State) : (reportFailure f s).done = true := rfl
@[simp] theorem reportFailure_errf (f : Failure) (s : State) : (reportFailure f s).errf = true := rfl
@[simp] theorem reportFailure_vok (f : Failure) (s : State) : (reportFailure f s).vok = s.vok := rfl
@[simp] theorem reportFailure_err (f : Failure) (s : State) : (reportFailure f s).err = f.kind.code := rfl
@[simp] theorem reportFailure_errInfo (f : Failure) (s : State) : (reportFailure f s).errInfo = BitVec.ofNat 32 f.info := rfl
@[simp] theorem reportFailure_errOff (f : Failure) (s : State) : (reportFailure f s).errOff = BitVec.ofNat 16 f.off := rfl
@[simp] theorem reportFailure_errLen (f : Failure) (s : State) : (reportFailure f s).errLen = BitVec.ofNat 16 f.len := rfl
@[simp] theorem reportFailure_einLen (f : Failure) (s : State) : (reportFailure f s).einLen = s.einLen := rfl
@[simp] theorem reportFailure_txtLen (f : Failure) (s : State) : (reportFailure f s).txtLen = s.txtLen := rfl
@[simp] theorem reportFailure_eoutLen (f : Failure) (s : State) : (reportFailure f s).eoutLen = s.eoutLen := rfl
@[simp] theorem reportFailure_mcount (f : Failure) (s : State) : (reportFailure f s).mcount = s.mcount := rfl
@[simp] theorem reportFailure_midx (f : Failure) (s : State) : (reportFailure f s).midx = s.midx := rfl
@[simp] theorem reportFailure_mwLen (f : Failure) (s : State) : (reportFailure f s).mwLen = s.mwLen := rfl
@[simp] theorem reportFailure_mem (f : Failure) (s : State) : (reportFailure f s).mem = s.mem := rfl
@[simp] theorem reportFailure_op (f : Failure) (s : State) : (reportFailure f s).op = 0 := rfl
@[simp] theorem reportFailure_vf (f : Failure) (s : State) : (reportFailure f s).vf = s.vf := rfl
@[simp] theorem reportFailure_rdata (f : Failure) (s : State) : (reportFailure f s).rdata = s.rdata := rfl
@[simp] theorem reportFailure_pending (f : Failure) (s : State) : (reportFailure f s).pending = s.pending := rfl

@[simp] theorem clearMnemonic_params (s : State) : (clearMnemonic s).params = s.params := rfl
@[simp] theorem clearMnemonic_srcFits (s : State) : (clearMnemonic s).srcFits = s.srcFits := rfl
@[simp] theorem clearMnemonic_busy (s : State) : (clearMnemonic s).busy = s.busy := rfl
@[simp] theorem clearMnemonic_done (s : State) : (clearMnemonic s).done = s.done := rfl
@[simp] theorem clearMnemonic_errf (s : State) : (clearMnemonic s).errf = s.errf := rfl
@[simp] theorem clearMnemonic_vok (s : State) : (clearMnemonic s).vok = s.vok := rfl
@[simp] theorem clearMnemonic_err (s : State) : (clearMnemonic s).err = s.err := rfl
@[simp] theorem clearMnemonic_errInfo (s : State) : (clearMnemonic s).errInfo = s.errInfo := rfl
@[simp] theorem clearMnemonic_errOff (s : State) : (clearMnemonic s).errOff = s.errOff := rfl
@[simp] theorem clearMnemonic_errLen (s : State) : (clearMnemonic s).errLen = s.errLen := rfl
@[simp] theorem clearMnemonic_einLen (s : State) : (clearMnemonic s).einLen = s.einLen := rfl
@[simp] theorem clearMnemonic_txtLen (s : State) : (clearMnemonic s).txtLen = s.txtLen := rfl
@[simp] theorem clearMnemonic_eoutLen (s : State) : (clearMnemonic s).eoutLen = s.eoutLen := rfl
@[simp] theorem clearMnemonic_mcount (s : State) : (clearMnemonic s).mcount = 0 := rfl
@[simp] theorem clearMnemonic_midx (s : State) : (clearMnemonic s).midx = Vector.replicate 24 0 := rfl
@[simp] theorem clearMnemonic_mwLen (s : State) : (clearMnemonic s).mwLen = Vector.replicate 24 0 := rfl
@[simp] theorem clearMnemonic_mem (s : State) : (clearMnemonic s).mem = s.mem.clear slotWindow (32 * mnCap) := rfl
@[simp] theorem clearMnemonic_op (s : State) : (clearMnemonic s).op = s.op := rfl
@[simp] theorem clearMnemonic_vf (s : State) : (clearMnemonic s).vf = s.vf := rfl
@[simp] theorem clearMnemonic_rdata (s : State) : (clearMnemonic s).rdata = s.rdata := rfl
@[simp] theorem clearMnemonic_pending (s : State) : (clearMnemonic s).pending = s.pending := rfl

@[simp] theorem clearEntropy_params (s : State) : (clearEntropy s).params = s.params := rfl
@[simp] theorem clearEntropy_srcFits (s : State) : (clearEntropy s).srcFits = s.srcFits := rfl
@[simp] theorem clearEntropy_busy (s : State) : (clearEntropy s).busy = s.busy := rfl
@[simp] theorem clearEntropy_done (s : State) : (clearEntropy s).done = s.done := rfl
@[simp] theorem clearEntropy_errf (s : State) : (clearEntropy s).errf = s.errf := rfl
@[simp] theorem clearEntropy_vok (s : State) : (clearEntropy s).vok = s.vok := rfl
@[simp] theorem clearEntropy_err (s : State) : (clearEntropy s).err = s.err := rfl
@[simp] theorem clearEntropy_errInfo (s : State) : (clearEntropy s).errInfo = s.errInfo := rfl
@[simp] theorem clearEntropy_errOff (s : State) : (clearEntropy s).errOff = s.errOff := rfl
@[simp] theorem clearEntropy_errLen (s : State) : (clearEntropy s).errLen = s.errLen := rfl
@[simp] theorem clearEntropy_einLen (s : State) : (clearEntropy s).einLen = s.einLen := rfl
@[simp] theorem clearEntropy_txtLen (s : State) : (clearEntropy s).txtLen = s.txtLen := rfl
@[simp] theorem clearEntropy_eoutLen (s : State) : (clearEntropy s).eoutLen = 0 := rfl
@[simp] theorem clearEntropy_mcount (s : State) : (clearEntropy s).mcount = s.mcount := rfl
@[simp] theorem clearEntropy_midx (s : State) : (clearEntropy s).midx = s.midx := rfl
@[simp] theorem clearEntropy_mwLen (s : State) : (clearEntropy s).mwLen = s.mwLen := rfl
@[simp] theorem clearEntropy_mem (s : State) : (clearEntropy s).mem = s.mem.clear eoutBase entCap := rfl
@[simp] theorem clearEntropy_op (s : State) : (clearEntropy s).op = s.op := rfl
@[simp] theorem clearEntropy_vf (s : State) : (clearEntropy s).vf = s.vf := rfl
@[simp] theorem clearEntropy_rdata (s : State) : (clearEntropy s).rdata = s.rdata := rfl
@[simp] theorem clearEntropy_pending (s : State) : (clearEntropy s).pending = s.pending := rfl

@[simp] theorem storeMnemonic_params (g : List Nat) (s : State) : (storeMnemonic g s).params = s.params := rfl
@[simp] theorem storeMnemonic_srcFits (g : List Nat) (s : State) : (storeMnemonic g s).srcFits = s.srcFits := rfl
@[simp] theorem storeMnemonic_busy (g : List Nat) (s : State) : (storeMnemonic g s).busy = s.busy := rfl
@[simp] theorem storeMnemonic_done (g : List Nat) (s : State) : (storeMnemonic g s).done = s.done := rfl
@[simp] theorem storeMnemonic_errf (g : List Nat) (s : State) : (storeMnemonic g s).errf = s.errf := rfl
@[simp] theorem storeMnemonic_vok (g : List Nat) (s : State) : (storeMnemonic g s).vok = s.vok := rfl
@[simp] theorem storeMnemonic_err (g : List Nat) (s : State) : (storeMnemonic g s).err = s.err := rfl
@[simp] theorem storeMnemonic_errInfo (g : List Nat) (s : State) : (storeMnemonic g s).errInfo = s.errInfo := rfl
@[simp] theorem storeMnemonic_errOff (g : List Nat) (s : State) : (storeMnemonic g s).errOff = s.errOff := rfl
@[simp] theorem storeMnemonic_errLen (g : List Nat) (s : State) : (storeMnemonic g s).errLen = s.errLen := rfl
@[simp] theorem storeMnemonic_einLen (g : List Nat) (s : State) : (storeMnemonic g s).einLen = s.einLen := rfl
@[simp] theorem storeMnemonic_txtLen (g : List Nat) (s : State) : (storeMnemonic g s).txtLen = s.txtLen := rfl
@[simp] theorem storeMnemonic_eoutLen (g : List Nat) (s : State) : (storeMnemonic g s).eoutLen = s.eoutLen := rfl
@[simp] theorem storeMnemonic_mcount (g : List Nat) (s : State) : (storeMnemonic g s).mcount = BitVec.ofNat 5 g.length := rfl
@[simp] theorem storeMnemonic_midx (g : List Nat) (s : State) : (storeMnemonic g s).midx = midxOf g := rfl
@[simp] theorem storeMnemonic_mwLen (g : List Nat) (s : State) : (storeMnemonic g s).mwLen = mwLenOf (g.map (wordOf s.vf)) := rfl
@[simp] theorem storeMnemonic_mem (g : List Nat) (s : State) : (storeMnemonic g s).mem = writeSlots s.params.wordMax 0 (g.map (wordOf s.vf)) (s.mem.clear slotWindow (32 * mnCap)) := rfl
@[simp] theorem storeMnemonic_op (g : List Nat) (s : State) : (storeMnemonic g s).op = s.op := rfl
@[simp] theorem storeMnemonic_vf (g : List Nat) (s : State) : (storeMnemonic g s).vf = s.vf := rfl
@[simp] theorem storeMnemonic_rdata (g : List Nat) (s : State) : (storeMnemonic g s).rdata = s.rdata := rfl
@[simp] theorem storeMnemonic_pending (g : List Nat) (s : State) : (storeMnemonic g s).pending = s.pending := rfl

@[simp] theorem storeEntropy_params (e : List Byte) (s : State) : (storeEntropy e s).params = s.params := rfl
@[simp] theorem storeEntropy_srcFits (e : List Byte) (s : State) : (storeEntropy e s).srcFits = s.srcFits := rfl
@[simp] theorem storeEntropy_busy (e : List Byte) (s : State) : (storeEntropy e s).busy = s.busy := rfl
@[simp] theorem storeEntropy_done (e : List Byte) (s : State) : (storeEntropy e s).done = s.done := rfl
@[simp] theorem storeEntropy_errf (e : List Byte) (s : State) : (storeEntropy e s).errf = s.errf := rfl
@[simp] theorem storeEntropy_vok (e : List Byte) (s : State) : (storeEntropy e s).vok = s.vok := rfl
@[simp] theorem storeEntropy_err (e : List Byte) (s : State) : (storeEntropy e s).err = s.err := rfl
@[simp] theorem storeEntropy_errInfo (e : List Byte) (s : State) : (storeEntropy e s).errInfo = s.errInfo := rfl
@[simp] theorem storeEntropy_errOff (e : List Byte) (s : State) : (storeEntropy e s).errOff = s.errOff := rfl
@[simp] theorem storeEntropy_errLen (e : List Byte) (s : State) : (storeEntropy e s).errLen = s.errLen := rfl
@[simp] theorem storeEntropy_einLen (e : List Byte) (s : State) : (storeEntropy e s).einLen = s.einLen := rfl
@[simp] theorem storeEntropy_txtLen (e : List Byte) (s : State) : (storeEntropy e s).txtLen = s.txtLen := rfl
@[simp] theorem storeEntropy_eoutLen (e : List Byte) (s : State) : (storeEntropy e s).eoutLen = BitVec.ofNat 6 e.length := rfl
@[simp] theorem storeEntropy_mcount (e : List Byte) (s : State) : (storeEntropy e s).mcount = s.mcount := rfl
@[simp] theorem storeEntropy_midx (e : List Byte) (s : State) : (storeEntropy e s).midx = s.midx := rfl
@[simp] theorem storeEntropy_mwLen (e : List Byte) (s : State) : (storeEntropy e s).mwLen = s.mwLen := rfl
@[simp] theorem storeEntropy_mem (e : List Byte) (s : State) : (storeEntropy e s).mem = (s.mem.clear eoutBase entCap).writeBytes eoutBase e := rfl
@[simp] theorem storeEntropy_op (e : List Byte) (s : State) : (storeEntropy e s).op = s.op := rfl
@[simp] theorem storeEntropy_vf (e : List Byte) (s : State) : (storeEntropy e s).vf = s.vf := rfl
@[simp] theorem storeEntropy_rdata (e : List Byte) (s : State) : (storeEntropy e s).rdata = s.rdata := rfl
@[simp] theorem storeEntropy_pending (e : List Byte) (s : State) : (storeEntropy e s).pending = s.pending := rfl

/-! The failing command's outputs, cleared: every other field is kept. -/

@[simp] theorem clearOutputs_params (s : State) : (clearOutputs s).params = s.params := by unfold clearOutputs; split <;> [skip; split] <;> rfl
@[simp] theorem clearOutputs_srcFits (s : State) : (clearOutputs s).srcFits = s.srcFits := by unfold clearOutputs; split <;> [skip; split] <;> rfl
@[simp] theorem clearOutputs_busy (s : State) : (clearOutputs s).busy = s.busy := by unfold clearOutputs; split <;> [skip; split] <;> rfl
@[simp] theorem clearOutputs_done (s : State) : (clearOutputs s).done = s.done := by unfold clearOutputs; split <;> [skip; split] <;> rfl
@[simp] theorem clearOutputs_errf (s : State) : (clearOutputs s).errf = s.errf := by unfold clearOutputs; split <;> [skip; split] <;> rfl
@[simp] theorem clearOutputs_vok (s : State) : (clearOutputs s).vok = s.vok := by unfold clearOutputs; split <;> [skip; split] <;> rfl
@[simp] theorem clearOutputs_err (s : State) : (clearOutputs s).err = s.err := by unfold clearOutputs; split <;> [skip; split] <;> rfl
@[simp] theorem clearOutputs_errInfo (s : State) : (clearOutputs s).errInfo = s.errInfo := by unfold clearOutputs; split <;> [skip; split] <;> rfl
@[simp] theorem clearOutputs_errOff (s : State) : (clearOutputs s).errOff = s.errOff := by unfold clearOutputs; split <;> [skip; split] <;> rfl
@[simp] theorem clearOutputs_errLen (s : State) : (clearOutputs s).errLen = s.errLen := by unfold clearOutputs; split <;> [skip; split] <;> rfl
@[simp] theorem clearOutputs_einLen (s : State) : (clearOutputs s).einLen = s.einLen := by unfold clearOutputs; split <;> [skip; split] <;> rfl
@[simp] theorem clearOutputs_txtLen (s : State) : (clearOutputs s).txtLen = s.txtLen := by unfold clearOutputs; split <;> [skip; split] <;> rfl
@[simp] theorem clearOutputs_op (s : State) : (clearOutputs s).op = s.op := by unfold clearOutputs; split <;> [skip; split] <;> rfl
@[simp] theorem clearOutputs_vf (s : State) : (clearOutputs s).vf = s.vf := by unfold clearOutputs; split <;> [skip; split] <;> rfl
@[simp] theorem clearOutputs_rdata (s : State) : (clearOutputs s).rdata = s.rdata := by unfold clearOutputs; split <;> [skip; split] <;> rfl
@[simp] theorem clearOutputs_pending (s : State) : (clearOutputs s).pending = s.pending := by unfold clearOutputs; split <;> [skip; split] <;> rfl

/-! The failure step. -/

@[simp] theorem raise_params (f : Failure) (s : State) : (raise f s).params = s.params := by simp [raise]
@[simp] theorem raise_srcFits (f : Failure) (s : State) : (raise f s).srcFits = s.srcFits := by simp [raise]
@[simp] theorem raise_busy (f : Failure) (s : State) : (raise f s).busy = false := rfl
@[simp] theorem raise_done (f : Failure) (s : State) : (raise f s).done = true := rfl
@[simp] theorem raise_errf (f : Failure) (s : State) : (raise f s).errf = true := rfl
@[simp] theorem raise_vok (f : Failure) (s : State) : (raise f s).vok = s.vok := by simp [raise]
@[simp] theorem raise_err (f : Failure) (s : State) : (raise f s).err = f.kind.code := rfl
@[simp] theorem raise_errInfo (f : Failure) (s : State) : (raise f s).errInfo = BitVec.ofNat 32 f.info := rfl
@[simp] theorem raise_errOff (f : Failure) (s : State) : (raise f s).errOff = BitVec.ofNat 16 f.off := rfl
@[simp] theorem raise_errLen (f : Failure) (s : State) : (raise f s).errLen = BitVec.ofNat 16 f.len := rfl
@[simp] theorem raise_einLen (f : Failure) (s : State) : (raise f s).einLen = s.einLen := by simp [raise]
@[simp] theorem raise_txtLen (f : Failure) (s : State) : (raise f s).txtLen = s.txtLen := by simp [raise]
@[simp] theorem raise_eoutLen (f : Failure) (s : State) : (raise f s).eoutLen = (clearOutputs s).eoutLen := rfl
@[simp] theorem raise_mcount (f : Failure) (s : State) : (raise f s).mcount = (clearOutputs s).mcount := rfl
@[simp] theorem raise_midx (f : Failure) (s : State) : (raise f s).midx = (clearOutputs s).midx := rfl
@[simp] theorem raise_mwLen (f : Failure) (s : State) : (raise f s).mwLen = (clearOutputs s).mwLen := rfl
@[simp] theorem raise_mem (f : Failure) (s : State) : (raise f s).mem = (clearOutputs s).mem := rfl
@[simp] theorem raise_op (f : Failure) (s : State) : (raise f s).op = 0 := rfl
@[simp] theorem raise_vf (f : Failure) (s : State) : (raise f s).vf = s.vf := by simp [raise]
@[simp] theorem raise_rdata (f : Failure) (s : State) : (raise f s).rdata = s.rdata := by simp [raise]
@[simp] theorem raise_pending (f : Failure) (s : State) : (raise f s).pending = s.pending := by simp [raise]

theorem clearOutputs_encode {s : State} (h : s.op = 1) : clearOutputs s = clearMnemonic s := by
  simp [clearOutputs, h]

theorem clearOutputs_decode {s : State} (h : s.op = 2) : clearOutputs s = clearEntropy s := by
  simp [clearOutputs, h]

end Sys2Proof.Machine
end

