-- ==== Sys2Proof/Laws/Encode.lean ====
section
/-! SUPPORT. The laws of ENCODE: the groups of an entropy and their inverse, and what the word slots read as after a
success. -/

namespace Sys2Proof.Machine

/-- The bit string of a legal entropy has exactly `11 * n` bits (R66). -/
theorem bitString_lt {e : List Byte} {cs c n : Nat} (hc : c < 2 ^ cs) (hn : 8 * e.length + cs = 11 * n) :
    bitString e cs c < 2048 ^ n := by
  have h1 := be_lt e
  have h2 : (2048 : Nat) ^ n = 256 ^ e.length * 2 ^ cs := by
    rw [show (2048 : Nat) = 2 ^ 11 by norm_num, show (256 : Nat) = 2 ^ 8 by norm_num, ← pow_mul, ← pow_mul, ← pow_add, hn]
  rw [h2, bitString]
  calc be e * 2 ^ cs + c < be e * 2 ^ cs + 2 ^ cs := by omega
    _ = (be e + 1) * 2 ^ cs := by ring
    _ ≤ 256 ^ e.length * 2 ^ cs := Nat.mul_le_mul_right _ h1

/-- The bits of a legal entropy and its checksum fill its groups (R92). -/
theorem wordCount_mul {l : Nat} (h : l ∈ entLens) :
    8 * l + checksumBits (entropyBits l) = 11 * wordCount (entropyBits l) := by
  rw [mem_entLens] at h
  rcases h with rfl | rfl | rfl | rfl | rfl <;> rfl

/-- The decoder's lengths from the encoder's (R94). -/
theorem messageLength_wordCount {l : Nat} (h : l ∈ entLens) :
    messageLengthForWordCount (wordCount (entropyBits l)) = 8 * l := by
  rw [mem_entLens] at h
  rcases h with rfl | rfl | rfl | rfl | rfl <;> rfl

@[simp] theorem entropyGroups_length (e : List Byte) :
    (entropyGroups e).length = wordCount (entropyBits e.length) := by simp [entropyGroups]

theorem wordCount_mem {l : Nat} (h : l ∈ entLens) : wordCount (entropyBits l) ∈ wordCounts := by
  rw [mem_entLens] at h
  rcases h with rfl | rfl | rfl | rfl | rfl <;> decide

theorem mem_entropyGroups_lt {e : List Byte} {g : Nat} (h : g ∈ entropyGroups e) : g < 2048 := mem_groups_lt h

/-- The groups of a legal entropy pack to its bit string (R66, R67, R123). -/
theorem packIndices_entropyGroups {e : List Byte} (h : e.length ∈ entLens) :
    packIndices (entropyGroups e) = bitString e (checksumBits (entropyBits e.length)) (checksum e) :=
  packIndices_groups (bitString_lt (checksum_lt h) (wordCount_mul h))

/-- Reassembling the groups of a legal entropy gives it back (R123). -/
theorem reassemble_entropyGroups {e : List Byte} (h : e.length ∈ entLens) : reassemble (entropyGroups e) = e := by
  have hc := checksum_lt h
  unfold reassemble
  rw [packIndices_entropyGroups h, entropyGroups_length, messageLength_wordCount h, bitString]
  unfold checksumBits entropyBits at *
  dsimp only
  rw [Nat.shiftRight_eq_div_pow, Nat.add_comm, Nat.add_mul_div_right _ _ (by positivity), Nat.div_eq_of_lt hc,
    Nat.zero_add, Nat.mul_div_cancel_left _ (by norm_num)]
  exact toBytes_be e

/-- The embedded checksum of the groups of a legal entropy is its checksum (R123). -/
theorem embeddedChecksum_entropyGroups {e : List Byte} (h : e.length ∈ entLens) :
    embeddedChecksum (entropyGroups e) = checksum e := by
  have hc := checksum_lt h
  unfold embeddedChecksum
  rw [packIndices_entropyGroups h, entropyGroups_length, messageLength_wordCount h, bitString]
  unfold checksumBits entropyBits at *
  rw [Nat.and_two_pow_sub_one_eq_mod, Nat.mul_add_mod', Nat.mod_eq_of_lt hc]

theorem wf_writeSlots {m : Memory} (hm : m.wf = true) (wm i : Nat) (ws : List VWord) :
    (writeSlots wm i ws m).wf = true := by
  induction ws generalizing i m with
  | nil => exact hm
  | cons w ws ih => exact ih (Memory.wf_writeBytes hm _ _) _

/-- Writing slots leaves every address below and above them alone. -/
theorem read_writeSlots_of_outside (m : Memory) {wm : Nat} (hwm : wm ≤ 31) (i : Nat) (ws : List VWord) {x : Nat}
    (h : x ≤ slotBase i ∨ slotBase (i + ws.length) ≤ x) : (writeSlots wm i ws m).read x = m.read x := by
  induction ws generalizing i m with
  | nil => rfl
  | cons w ws ih =>
    simp only [List.length_cons] at h
    have hl : (w.take wm).length ≤ 31 := by rw [List.length_take]; omega
    rw [writeSlots, ih, Memory.read_writeBytes_of_outside]
    · unfold slotBase at *; omega
    · unfold slotBase at *; omega

/-- What a byte of a written slot reads as, where the slots were 0 before (R68, R111). -/
theorem read_writeSlots {m : Memory} (hm : m.wf = true) {wm : Nat} (hwm : wm ≤ 31) (i0 : Nat) (ws : List VWord)
    (hz : ∀ i j, i < ws.length → j < wm → m.read (slotBase (i0 + i) + 1 + j) = 0)
    {i j : Nat} (hi : i < ws.length) (hj : j < wm) :
    (writeSlots wm i0 ws m).read (slotBase (i0 + i) + 1 + j) = (ws.getD i []).getD j 0 := by
  induction ws generalizing i0 m i with
  | nil => simp at hi
  | cons w ws ih =>
    have hl : (w.take wm).length ≤ wm := by rw [List.length_take]; omega
    rw [writeSlots]
    cases i with
    | zero =>
      rw [read_writeSlots_of_outside _ hwm _ _ (by unfold slotBase; omega)]
      simp only [Nat.add_zero]
      by_cases h : j < (w.take wm).length
      · rw [Memory.read_writeBytes hm _ _ h]
        simp [List.getD_eq_getElem?_getD, hj]
      · rw [Memory.read_writeBytes_of_outside _ _ _ (by omega)]
        have := hz 0 j (by simp) hj
        simp only [Nat.add_zero] at this
        rw [List.length_take] at h
        rw [this]
        simp [List.getD_eq_getElem?_getD, List.getElem?_eq_none (show w.length ≤ j by omega)]
    | succ i =>
      simp only [List.length_cons, Nat.add_lt_add_iff_right] at hi
      rw [show i0 + (i + 1) = i0 + 1 + i by omega, ih (Memory.wf_writeBytes hm _ _) (i0 + 1) _ hi]
      · simp
      · intro i' j' hi' hj'
        rw [Memory.read_writeBytes_of_outside _ _ _ (by unfold slotBase; omega)]
        have := hz (i' + 1) j' (by simpa using hi') hj'
        rwa [show i0 + (i' + 1) = i0 + 1 + i' by omega] at this

theorem mem_writeSlots {m : Memory} {wm : Nat} {i0 : Nat} {ws : List VWord} {c : Host.Cell}
    (h : c ∈ writeSlots wm i0 ws m) :
    c ∈ m ∨ ∃ i j, i < ws.length ∧ j < wm ∧ c.1 = slotBase (i0 + i) + 1 + j := by
  induction ws generalizing i0 m with
  | nil => exact .inl h
  | cons w ws ih =>
    rw [writeSlots] at h
    rcases ih h with h | ⟨i, j, hi, hj, hc⟩
    · rcases Memory.mem_writeBytes h with h | ⟨h1, h2⟩
      · exact .inl h
      · rw [List.length_take] at h2
        exact .inr ⟨0, c.1 - (slotBase i0 + 1), by simp, by omega, by simp only [Nat.add_zero]; omega⟩
    · exact .inr ⟨i + 1, j, by simpa using hi, hj, by rw [hc]; congr 3; omega⟩

/-- `MIDX[i]` of a success. -/
theorem midxOf_get (g : List Nat) (i : Fin 24) : (midxOf g).get i = BitVec.ofNat 11 (g.getD i.val 0) := by
  simp [midxOf, Vector.get_eq_getElem]

/-- `MW_LEN[i]` of a success. -/
theorem mwLenOf_get (ws : List VWord) (i : Fin 24) : (mwLenOf ws).get i = BitVec.ofNat 5 (ws.getD i.val []).length := by
  simp [mwLenOf, Vector.get_eq_getElem]

@[simp] theorem replicate_get {α : Type} (x : α) (i : Fin 24) : (Vector.replicate 24 x).get i = x := by
  simp [Vector.get_eq_getElem]

/-- The two ways ENCODE completes, each with its condition (R111). -/
theorem encodeComplete_cases (s : State) :
    (s.vok = false ∧ encodeComplete s = raise { kind := .invalidVocabularySize, info := 0, off := 0, len := 0 } s) ∨
    (s.vok = true ∧ s.einLen.toNat ∉ entLens ∧ encodeComplete s =
      raise { kind := .invalidEntropyLength, info := 8 * s.einLen.toNat, off := 0, len := 0 } s) ∨
    (s.vok = true ∧ s.einLen.toNat ∈ entLens ∧
      encodeComplete s = reportSuccess (storeMnemonic (entropyGroups s.entropyIn) s)) := by
  unfold encodeComplete encodeOutcome
  by_cases h1 : s.vok = false
  · exact .inl ⟨h1, by rw [if_pos h1]⟩
  · by_cases h2 : s.einLen.toNat ∉ entLens
    · exact .inr (.inl ⟨by simpa using h1, h2, by rw [if_neg h1, if_pos h2]⟩)
    · exact .inr (.inr ⟨by simpa using h1, by simpa using h2, by rw [if_neg h1, if_neg h2]⟩)

/-- A cleared slot window reads 0. -/
theorem read_clear_slots (m : Memory) {i j : Nat} (hi : i < 24) (hj : j < 31) :
    (m.clear slotWindow (32 * mnCap)).read (slotBase i + 1 + j) = 0 := by
  rw [Memory.read_clear, if_pos]
  unfold slotBase slotWindow mnCap
  omega

/-- What a byte of a slot of the mnemonic reads as after a success (R111). -/
theorem storeMnemonic_slot {s : State} (hm : s.mem.wf = true) (hw : s.params.wordMax ≤ 31) {g : List Nat}
    (hg : g.length ≤ 24) {i j : Nat} (hi : i < g.length) (hj : j < s.params.wordMax) :
    (storeMnemonic g s).mem.read (slotBase i + 1 + j) = (wordOf s.vf (g.getD i 0)).getD j 0 := by
  have h := read_writeSlots (Memory.wf_clear hm slotWindow (32 * mnCap)) hw 0 (g.map (wordOf s.vf))
    (fun i' j' hi' hj' => by
      rw [Nat.zero_add]
      exact read_clear_slots _ (by rw [List.length_map] at hi'; omega) (by omega)) (i := i) (j := j) (by simpa using hi) hj
  rw [Nat.zero_add] at h
  simp only [storeMnemonic, h]
  simp [List.getD_eq_getElem?_getD, hi]

/-- A slot beyond the mnemonic reads 0 after a success (R111). -/
theorem storeMnemonic_slot_beyond {s : State} (hw : s.params.wordMax ≤ 31) {g : List Nat} {i j : Nat} (hi : g.length ≤ i)
    (h24 : i < 24) (hj : j < s.params.wordMax) : (storeMnemonic g s).mem.read (slotBase i + 1 + j) = 0 := by
  simp only [storeMnemonic]
  rw [read_writeSlots_of_outside _ hw]
  · exact read_clear_slots _ h24 (by omega)
  · right; rw [List.length_map]; unfold slotBase; omega

/-- A success of ENCODE leaves every byte outside the word slots alone. -/
theorem storeMnemonic_outside {s : State} (hw : s.params.wordMax ≤ 31) {g : List Nat} (hg : g.length ≤ 24) {x : Nat}
    (hx : ¬ (0x0100 ≤ x ∧ x < 0x0400)) : (storeMnemonic g s).mem.read x = s.mem.read x := by
  simp only [storeMnemonic]
  rw [read_writeSlots_of_outside _ hw, Memory.read_clear, if_neg]
  · unfold slotWindow mnCap; omega
  · rw [List.length_map]; unfold slotBase slotWindow; omega

/-- `MIDX` of a success (R111). -/
theorem storeMnemonic_midx_toNat {s : State} {g : List Nat} (h : ∀ x ∈ g, x < 2048) {i : Fin 24} (hi : i < g.length) :
    ((storeMnemonic g s).midx.get i).toNat = g.getD i 0 := by
  simp only [storeMnemonic, midxOf_get, BitVec.toNat_ofNat]
  apply Nat.mod_eq_of_lt
  rw [List.getD_eq_getElem?_getD, List.getElem?_eq_getElem hi]
  exact h _ (List.getElem_mem hi)

/-- `MW_LEN` of a success (R111). -/
theorem storeMnemonic_mwLen_toNat {s : State} {g : List Nat} (h : ∀ v, (wordOf s.vf v).length ≤ 31) {i : Fin 24} (hi : i < g.length) :
    ((storeMnemonic g s).mwLen.get i).toNat = (wordOf s.vf (g.getD i 0)).length := by
  simp only [storeMnemonic, mwLenOf_get, BitVec.toNat_ofNat]
  rw [List.getD_eq_getElem?_getD, List.getElem?_map, List.getElem?_eq_getElem hi, List.getD_eq_getElem?_getD,
    List.getElem?_eq_getElem hi]
  simp only [Option.map_some, Option.getD_some]
  have := h g[i.val]
  exact Nat.mod_eq_of_lt (by omega)

theorem wordCount_le {l : Nat} (h : l ∈ entLens) : wordCount (entropyBits l) ≤ 24 := by
  have := wordCount_mem h
  rw [mem_wordCounts] at this; omega

@[simp] theorem entropyIn_length (s : State) : s.entropyIn.length = s.einLen.toNat := by simp [State.entropyIn]

/-- The completion of ENCODE is the engine's step when `OP` = 1 (R143). -/
theorem complete_encode {s : State} (h : s.op = 1) : complete s = .next (encodeComplete s) := by
  rw [complete, if_pos h]

/-- The failure step of ENCODE clears ENCODE's outputs (R152). -/
theorem raise_encode (f : Failure) {s : State} (h : s.op = 1) : raise f s = reportFailure f (clearMnemonic s) := by
  simp [raise, clearOutputs, h]

end Sys2Proof.Machine
end

