-- ==== Sys2Proof/Laws/Datapath.lean ====
section
/-! SUPPORT. What the inner loops of the two rolling accumulators keep (42_encode.md R113, 43_decode.md R126). -/

namespace Sys2Proof.Machine

/-- What the encode accumulator holds after the bits of `v`, `t` of them, have been fed (R113). -/
structure EncodeAcc (v t : Nat) (r : Nat × Nat × List Nat) : Prop where
  value : r.1 * 2048 ^ r.2.2.length + packIndices r.2.2.reverse = v
  bits : r.2.1 + 11 * r.2.2.length = t
  acc_lt : r.1 < 2 ^ r.2.1
  out_lt : ∀ g ∈ r.2.2, g < 2048

theorem extractGroups_spec {v t : Nat} (fuel acc nb : Nat) (out : List Nat) (h : EncodeAcc v t (acc, nb, out))
    (hf : nb ≤ fuel) : EncodeAcc v t (extractGroups fuel acc nb out) ∧ (extractGroups fuel acc nb out).2.1 < 11 := by
  induction fuel generalizing acc nb out with
  | zero => exact ⟨h, by simp only [extractGroups]; omega⟩
  | succ fuel ih =>
    unfold extractGroups
    split
    · rename_i h11
      refine ih _ _ _ ⟨?_, ?_, ?_, ?_⟩ (by omega)
      · have hv := h.value
        have hm := Nat.div_add_mod acc 2048
        simp only [Nat.shiftRight_eq_div_pow, show (0x7FF : Nat) = 2 ^ 11 - 1 by norm_num, Nat.and_two_pow_sub_one_eq_mod,
          List.length_append, List.length_singleton, List.reverse_append, List.reverse_singleton, List.singleton_append,
          packIndices_cons, List.length_reverse, pow_succ 2048] at *
        norm_num at *
        rw [← hv, ← Nat.add_assoc]
        congr 1
        calc acc / 2048 * (2048 ^ out.length * 2048) + acc % 2048 * 2048 ^ out.length
            = (2048 * (acc / 2048) + acc % 2048) * 2048 ^ out.length := by ring
          _ = _ := by rw [hm]
      · have := h.bits
        simp only [List.length_append, List.length_singleton] at *
        omega
      · have := h.acc_lt
        simp only [Nat.shiftRight_eq_div_pow] at *
        rw [Nat.div_lt_iff_lt_mul (by positivity), ← pow_add, Nat.sub_add_cancel h11]
        exact this
      · intro g hg
        rcases List.mem_append.1 hg with hg | hg
        · exact h.out_lt g hg
        · rw [List.mem_singleton.1 hg, show (0x7FF : Nat) = 2 ^ 11 - 1 by norm_num, Nat.and_two_pow_sub_one_eq_mod]
          exact Nat.mod_lt _ (by norm_num)
    · exact ⟨h, by simp only; omega⟩

/-- Feeding a byte above the bits held (R113). -/
theorem feed_lt {acc nb : Nat} (b : Byte) (h : acc < 2 ^ nb) :
    acc ||| (b.toNat <<< nb) = acc + b.toNat * 2 ^ nb ∧ acc ||| (b.toNat <<< nb) < 2 ^ (nb + 8) := by
  have e : acc ||| (b.toNat <<< nb) = acc + b.toNat * 2 ^ nb := by
    rw [Nat.or_comm, ← Nat.shiftLeft_add_eq_or_of_lt h, Nat.shiftLeft_eq, Nat.add_comm]
  refine ⟨e, ?_⟩
  rw [e, pow_add]
  have := b.isLt
  calc acc + b.toNat * 2 ^ nb < 2 ^ nb + b.toNat * 2 ^ nb := by omega
    _ = (b.toNat + 1) * 2 ^ nb := by ring
    _ ≤ 2 ^ 8 * 2 ^ nb := Nat.mul_le_mul_right _ this
    _ = 2 ^ nb * 2 ^ 8 := by ring

/-- What the decode accumulator holds after the indices `fed` (R126). -/
structure DecodeAcc (nbytes : Nat) (v t : Nat) (r : Nat × Nat × List Byte) : Prop where
  value : be r.2.2 * 2 ^ r.2.1 + r.1 = v
  bits : r.2.1 + 8 * r.2.2.length = t
  acc_lt : r.1 < 2 ^ r.2.1
  out_le : r.2.2.length ≤ nbytes

theorem extractBytes_spec {nbytes v t : Nat} (fuel acc nb : Nat) (out : List Byte) (h : DecodeAcc nbytes v t (acc, nb, out))
    (hf : nb ≤ fuel) : DecodeAcc nbytes v t (extractBytes nbytes fuel acc nb out) ∧
      ((extractBytes nbytes fuel acc nb out).2.1 < 8 ∨ (extractBytes nbytes fuel acc nb out).2.2.length = nbytes) := by
  induction fuel generalizing acc nb out with
  | zero => exact ⟨h, .inl (by simp only [extractBytes]; omega)⟩
  | succ fuel ih =>
    unfold extractBytes
    split
    · rename_i h8
      refine ih _ _ _ ⟨?_, ?_, ?_, ?_⟩ (by omega)
      · have hv := h.value
        have hlt := h.acc_lt
        simp only at *
        have hq : acc / 2 ^ (nb - 8) < 256 := by
          rw [Nat.div_lt_iff_lt_mul (by positivity), show (256 : Nat) = 2 ^ 8 by norm_num, ← pow_add, Nat.add_sub_cancel' h8.1]
          exact hlt
        rw [be_append, Nat.and_two_pow_sub_one_eq_mod, Nat.shiftRight_eq_div_pow, show (0xFF : Nat) = 2 ^ 8 - 1 by norm_num,
          Nat.and_two_pow_sub_one_eq_mod]
        simp only [be_cons, be_nil, List.length_nil, List.length_singleton, pow_zero, pow_one, BitVec.toNat_ofNat, Nat.mul_one, Nat.add_zero]
        rw [show (2:Nat)^8 = 256 by norm_num, Nat.mod_eq_of_lt (Nat.mod_lt _ (by norm_num)), Nat.mod_eq_of_lt hq, ← hv]
        have hm := Nat.div_add_mod acc (2 ^ (nb - 8))
        have hp : (2 : Nat) ^ nb = 256 * 2 ^ (nb - 8) := by
          rw [show (256 : Nat) = 2 ^ 8 by norm_num, ← pow_add, Nat.add_sub_cancel' h8.1]
        rw [hp]
        calc (be out * 256 + acc / 2 ^ (nb - 8)) * 2 ^ (nb - 8) + acc % 2 ^ (nb - 8)
            = be out * (256 * 2 ^ (nb - 8)) + (2 ^ (nb - 8) * (acc / 2 ^ (nb - 8)) + acc % 2 ^ (nb - 8)) := by ring
          _ = _ := by rw [hm]
      · have := h.bits
        simp only [List.length_append, List.length_singleton] at *
        omega
      · simp only
        rw [Nat.and_two_pow_sub_one_eq_mod]
        exact Nat.mod_lt _ (by positivity)
      · simp only [List.length_append, List.length_singleton]; omega
    · have := h.out_le
      exact ⟨h, by simp only at *; omega⟩

end Sys2Proof.Machine
end

