-- ==== Sys2Proof/Laws/Tokeniser.lean ====
section
/-! SUPPORT. The tokeniser on the pieces of a text: whitespace, a word, a separator. -/

namespace Sys2Proof.Machine

/-- Whitespace before a token produces nothing. -/
theorem tokenizeFrom_none_ws {ws : List Byte} {sep : List Byte} (h : ∀ b ∈ sep, b ∈ ws) (k : Nat) (rest : List Byte) :
    tokenizeFrom ws k none (sep ++ rest) = tokenizeFrom ws (k + sep.length) none rest := by
  induction sep generalizing k with
  | nil => rfl
  | cons b sep ih =>
    rw [List.cons_append, tokenizeFrom, if_pos (h b (List.mem_cons_self ..)),
      ih fun c hc => h c (List.mem_cons_of_mem _ hc), List.length_cons]
    congr 1
    omega

/-- Token bytes extend the token being read. -/
theorem tokenizeFrom_some_word {ws w : List Byte} (h : ∀ b ∈ w, b ∉ ws) (k s : Nat) (rest : List Byte) :
    tokenizeFrom ws k (some s) (w ++ rest) = tokenizeFrom ws (k + w.length) (some s) rest := by
  induction w generalizing k with
  | nil => rfl
  | cons b w ih =>
    rw [List.cons_append, tokenizeFrom, if_neg (h b (List.mem_cons_self ..)),
      ih fun c hc => h c (List.mem_cons_of_mem _ hc), List.length_cons]
    congr 1
    omega

/-- A non-empty word opens a token at its first byte. -/
theorem tokenizeFrom_none_word {ws w : List Byte} (hne : w ≠ []) (h : ∀ b ∈ w, b ∉ ws) (k : Nat) (rest : List Byte) :
    tokenizeFrom ws k none (w ++ rest) = tokenizeFrom ws (k + w.length) (some k) rest := by
  cases w with
  | nil => exact absurd rfl hne
  | cons b w =>
    rw [List.cons_append, tokenizeFrom, if_neg (h b (List.mem_cons_self ..)),
      tokenizeFrom_some_word fun c hc => h c (List.mem_cons_of_mem _ hc), List.length_cons]
    congr 1
    omega

/-- A non-empty separator closes the token being read. -/
theorem tokenizeFrom_some_ws {ws sep : List Byte} (hne : sep ≠ []) (h : ∀ b ∈ sep, b ∈ ws) (k s : Nat)
    (rest : List Byte) :
    tokenizeFrom ws k (some s) (sep ++ rest) =
      { off := s, len := k - s } :: tokenizeFrom ws (k + sep.length) none rest := by
  cases sep with
  | nil => exact absurd rfl hne
  | cons b sep =>
    rw [List.cons_append, tokenizeFrom, if_pos (h b (List.mem_cons_self ..)),
      tokenizeFrom_none_ws fun c hc => h c (List.mem_cons_of_mem _ hc), List.length_cons]
    congr 2
    omega

/-- The bytes of a token that spells `w` behind a prefix. -/
theorem Token.bytes_append (pre w rest : List Byte) :
    Token.bytes (pre ++ (w ++ rest)) { off := pre.length, len := w.length } = w := by
  simp [Token.bytes]

/-- A token that is a maximal run of non-whitespace bytes of `text`. -/
structure IsRun (ws text : List Byte) (t : Token) : Prop where
  pos : 0 < t.len
  inside : t.off + t.len ≤ text.length
  bytes : ∀ j, t.off ≤ j → j < t.off + t.len → text.getD j 0 ∉ ws
  left : t.off = 0 ∨ text.getD (t.off - 1) 0 ∈ ws
  right : t.off + t.len = text.length ∨ text.getD (t.off + t.len) 0 ∈ ws

/-- Where the scan stands at offset `k`: outside a token, or inside the one that began at `s`. -/
def ScanAt (ws text : List Byte) (k : Nat) : Option Nat → Prop
  | none => k = 0 ∨ text.getD (k - 1) 0 ∈ ws
  | some s => s < k ∧ (∀ j, s ≤ j → j < k → text.getD j 0 ∉ ws) ∧ (s = 0 ∨ text.getD (s - 1) 0 ∈ ws)

theorem getD_of_drop {text : List Byte} {k : Nat} {b : Byte} {bs : List Byte} (h : text.drop k = b :: bs) :
    text.getD k 0 = b ∧ text.drop (k + 1) = bs ∧ k < text.length := by
  have hk : k < text.length := by
    by_contra hn
    rw [List.drop_eq_nil_of_le (by omega)] at h
    cases h
  rw [List.drop_eq_getElem_cons hk] at h
  injection h with h1 h2
  exact ⟨by simp [hk, h1], h2, hk⟩

/-- Everything the scan produces from an offset on. -/
theorem tokenizeFrom_spec (ws text : List Byte) (rest : List Byte) (k : Nat) (st : Option Nat)
    (hd : text.drop k = rest) (hk : k ≤ text.length) (hs : ScanAt ws text k st) :
    (∀ t ∈ tokenizeFrom ws k st rest, IsRun ws text t ∧ st.getD k ≤ t.off) ∧
    (∀ j, st.getD k ≤ j → j < text.length → text.getD j 0 ∉ ws →
      ∃ t ∈ tokenizeFrom ws k st rest, t.off ≤ j ∧ j < t.off + t.len) ∧
    (tokenizeFrom ws k st rest).Pairwise (fun a b => a.off + a.len < b.off) := by
  induction rest generalizing k st with
  | nil =>
    have hk' : k = text.length := by
      have := List.drop_eq_nil_iff.1 hd
      omega
    cases st with
    | none => simp [tokenizeFrom]; omega
    | some s =>
      obtain ⟨h1, h2, h3⟩ := hs
      refine ⟨fun t ht => ?_, fun j hj hl hw => ?_, by simp [tokenizeFrom]⟩
      · simp only [tokenizeFrom, List.mem_singleton] at ht
        subst ht
        exact ⟨⟨by simp only; omega, by simp only; omega, fun j a b => h2 j a (by simp only at b; omega), h3, .inl (by simp only; omega)⟩, le_rfl⟩
      · simp only [Option.getD_some] at hj
        exact ⟨_, List.mem_singleton.2 rfl, hj, by simp only; omega⟩
  | cons b bs ih =>
    obtain ⟨hb, hd', hlt⟩ := getD_of_drop hd
    cases st with
    | none =>
      rw [tokenizeFrom]
      split
      · rename_i hw
        obtain ⟨i1, i2, i3⟩ := ih (k + 1) none hd' (by omega) (.inr (by rw [Nat.add_sub_cancel, hb]; exact hw))
        simp only [Option.getD_none] at *
        refine ⟨fun t ht => ⟨(i1 t ht).1, by have := (i1 t ht).2; omega⟩, fun j hj hl hn => i2 j ?_ hl hn, i3⟩
        rcases Nat.lt_or_ge k j with h | h
        · exact h
        · have : j = k := by omega
          subst this; rw [hb] at hn; exact absurd hw hn
      · rename_i hw
        obtain ⟨i1, i2, i3⟩ := ih (k + 1) (some k) hd' (by omega)
          ⟨by omega, fun j a c => by (have : j = k := by omega); subst this; rw [hb]; exact hw, hs⟩
        exact ⟨i1, i2, i3⟩
    | some s =>
      obtain ⟨h1, h2, h3⟩ := hs
      rw [tokenizeFrom]
      split
      · rename_i hw
        obtain ⟨i1, i2, i3⟩ := ih (k + 1) none hd' (by omega) (.inr (by rw [Nat.add_sub_cancel, hb]; exact hw))
        simp only [Option.getD_none, Option.getD_some] at *
        have ek : s + (k - s) = k := by omega
        refine ⟨fun t ht => ?_, fun j hj hl hn => ?_, ?_⟩
        · rcases List.mem_cons.1 ht with rfl | ht
          · exact ⟨⟨by simp only; omega, by simp only; omega, fun j a c => h2 j a (by simp only at c; omega), h3,
              .inr (by simp only [ek]; rw [hb]; exact hw)⟩, le_rfl⟩
          · exact ⟨(i1 t ht).1, by have := (i1 t ht).2; omega⟩
        · by_cases hjk : j < k
          · exact ⟨_, List.mem_cons_self .., hj, by simp only; omega⟩
          · have : j ≠ k := by rintro rfl; rw [hb] at hn; exact hn hw
            obtain ⟨t, ht, a, c⟩ := i2 j (by omega) hl hn
            exact ⟨t, List.mem_cons_of_mem _ ht, a, c⟩
        · rw [List.pairwise_cons]
          exact ⟨fun t ht => by have := (i1 t ht).2; simp only [ek]; omega, i3⟩
      · rename_i hw
        obtain ⟨i1, i2, i3⟩ := ih (k + 1) (some s) hd' (by omega)
          ⟨by omega, fun j a c => by
            by_cases hjk : j < k
            · exact h2 j a hjk
            · have : j = k := by omega
              subst this; rw [hb]; exact hw, h3⟩
        exact ⟨i1, i2, i3⟩

/-- The bytes of a run. -/
theorem IsRun.mem_bytes {ws text : List Byte} {t : Token} (h : IsRun ws text t) :
    (∀ b ∈ t.bytes text, b ∉ ws) ∧ (t.bytes text).length = t.len := by
  have hi := h.inside
  refine ⟨fun b hb => ?_, ?_⟩
  · obtain ⟨k, hk, rfl⟩ := List.getElem_of_mem hb
    have hk' := hk
    rw [Token.bytes, List.length_take, List.length_drop] at hk'
    have := h.bytes (t.off + k) (by omega) (by omega)
    rw [List.getD_eq_getElem?_getD, List.getElem?_eq_getElem (by omega)] at this
    simpa [Token.bytes] using this
  · rw [Token.bytes, List.length_take, List.length_drop]; omega

end Sys2Proof.Machine
end

