-- ==== Sys2Proof/Laws/Vocabulary.lean ====
section
/-! SUPPORT. The reverse look-up said once (40_vocabulary.md R82), and the reset step as the table of R31. -/

namespace Sys2Proof.Machine

theorem lastIndexFrom_shift (v : Nat) (ws : List VWord) (t : VWord) :
    lastIndexFrom v ws t = (lastIndexFrom 0 ws t).map (· + v) := by
  induction ws generalizing v with
  | nil => rfl
  | cons w ws ih =>
    rw [lastIndexFrom, lastIndexFrom, ih (v + 1), ih (0 + 1)]
    cases lastIndexFrom 0 ws t with
    | none => by_cases h : w = t <;> simp [h]
    | some r => simp; omega

theorem indexOf_cons (w : VWord) (ws : List VWord) (t : VWord) :
    indexOf (w :: ws) t = match indexOf ws t with
      | some r => some (r + 1)
      | none => if w = t then some 0 else none := by
  unfold indexOf
  rw [lastIndexFrom, lastIndexFrom_shift]
  cases lastIndexFrom 0 ws t <;> simp

/-- `index_of` misses exactly the words that are not in the vocabulary. -/
theorem indexOf_eq_none {ws : List VWord} {t : VWord} : indexOf ws t = none ↔ t ∉ ws := by
  induction ws with
  | nil => simp [indexOf, lastIndexFrom]
  | cons w ws ih =>
    rw [indexOf_cons]
    cases h : indexOf ws t with
    | none =>
      have := ih.1 h
      by_cases hw : w = t <;> simp [hw, this]
      exact fun e => hw e.symm
    | some r =>
      have : t ∈ ws := by
        by_contra hn
        rw [ih.2 hn] at h
        exact absurd h (by simp)
      simp [this]

/-- `index_of` answers the largest index of its word. -/
theorem indexOf_eq_some {ws : List VWord} {t : VWord} {r : Nat} :
    indexOf ws t = some r ↔ ws[r]? = some t ∧ ∀ r', r < r' → ws[r']? ≠ some t := by
  induction ws generalizing r with
  | nil => simp [indexOf, lastIndexFrom]
  | cons w ws ih =>
    rw [indexOf_cons]
    cases h : indexOf ws t with
    | none =>
      have hn := indexOf_eq_none.1 h
      have hn' : ∀ k : Nat, ws[k]? ≠ some t := fun k hk => hn (List.mem_of_getElem? hk)
      cases r with
      | zero =>
        by_cases hw : w = t
        · simp only [hw, if_true, List.getElem?_cons_zero, true_and, true_iff]
          intro r' hr'
          obtain ⟨k, rfl⟩ : ∃ k, r' = k + 1 := ⟨r' - 1, by omega⟩
          simpa using hn' k
        · simp [hw]
      | succ r =>
        by_cases hw : w = t <;> simp [hw, hn' r]
    | some q =>
      obtain ⟨h1, h2⟩ := ih.1 h
      cases r with
      | zero =>
        simp only [Option.some.injEq, Nat.add_eq_zero_iff, Nat.one_ne_zero, and_false, false_iff, not_and, not_forall]
        intro _
        exact ⟨q + 1, by omega, by simpa using h1⟩
      | succ r =>
        simp only [Option.some.injEq, Nat.add_right_cancel_iff, List.getElem?_cons_succ]
        constructor
        · rintro rfl
          refine ⟨h1, fun r' hr' => ?_⟩
          obtain ⟨k, rfl⟩ : ∃ k, r' = k + 1 := ⟨r' - 1, by omega⟩
          simpa using h2 k (by omega)
        · rintro ⟨h3, h4⟩
          rcases Nat.lt_trichotomy q r with hlt | heq | hgt
          · exact absurd h3 (h2 r hlt)
          · exact heq
          · exact absurd (by simpa using h1) (h4 (q + 1) (by omega))

/-- With distinct entries the reverse look-up of entry `v` is `v`. -/
theorem indexOf_of_nodup {ws : List VWord} (h : ws.Nodup) {v : Nat} {t : VWord} (hv : ws[v]? = some t) :
    indexOf ws t = some v := by
  refine indexOf_eq_some.2 ⟨hv, fun r' hr' e => ?_⟩
  obtain ⟨h1, e1⟩ := List.getElem?_eq_some_iff.1 hv
  obtain ⟨h2, e2⟩ := List.getElem?_eq_some_iff.1 e
  have := (List.Nodup.getElem_inj_iff h).1 (e1.trans e2.symm)
  omega

/-- The word of an index inside the vocabulary. -/
theorem wordOf_eq {ws : List VWord} {v : Nat} (h : v < ws.length) : ws[v]? = some (wordOf ws v) := by
  simp [wordOf, h]

/-- The reset step gives the values of the table of R31, whatever the state was; the host's side of the port stays. -/
theorem resetStep_eq (src : List VWord) (s : State) :
    resetStep src s =
      { State.resetOf { params := s.params, vocabSrc := src } with rdata := s.rdata, pending := s.pending } := by
  unfold resetStep vinit State.resetOf
  by_cases h : src.length = 2048
  · rw [if_neg (by simpa [nVocab] using h)]
    simp [h, clearAll]
  · rw [if_pos (by simpa [nVocab] using h)]
    simp [h, clearAll, ErrKind.code]

/-- Every entry of the test vocabulary has at most 8 bytes. -/
theorem testVocabulary_fits : Params.reference.Fits testVocabulary := by
  have pinned : ∀ p ∈ pinnedWords, p.2.length ≤ 8 := by decide
  intro w hw
  obtain ⟨v, -, rfl⟩ := List.mem_map.1 hw
  show (testWord v).length ≤ 8
  unfold testWord
  split
  · rename_i w' h
    obtain ⟨l₁, l₂, e, -⟩ := List.lookup_eq_some_iff.1 h
    exact pinned (v, w') (by rw [e]; simp)
  · simp

/-- The reference configuration is well-formed (R6). -/
theorem reference_wf : Config.reference.Wf := by
  simp only [Config.Wf, Config.reference]
  exact ⟨by decide, testVocabulary_fits⟩

/-- The reset state of a fitting word list records that it fits (R6 (a)). -/
theorem resetOf_srcFits {c : Config} (h : c.params.Fits c.vocabSrc) : (State.resetOf c).srcFits = true := by
  simpa [State.resetOf] using h

/-- `State.reset` is the reset state of the reference configuration, `srcFits` included. -/
theorem reset_eq_resetOf : State.reset = State.resetOf Config.reference := by
  have h := resetOf_srcFits reference_wf.2
  rw [State.reset, ← h]

/-- The word of a fitting vocabulary fits a slot (R6, R68). -/
theorem wordOf_length_le {p : Params} {vf : List VWord} (h : p.Fits vf) (v : Nat) : (wordOf vf v).length ≤ p.wordMax := by
  unfold wordOf
  rw [List.getD_eq_getElem?_getD]
  by_cases hv : v < vf.length
  · rw [List.getElem?_eq_getElem hv]; exact h _ (List.getElem_mem hv)
  · rw [List.getElem?_eq_none (by omega)]; simp

/-- An entry inside the vocabulary, in the two spellings. -/
theorem getElem?_eq_some_iff_wordOf {vf : List VWord} {v : Nat} {t : VWord} (hv : v < vf.length) : vf[v]? = some t ↔ wordOf vf v = t := by
  rw [wordOf_eq hv, Option.some.injEq]

end Sys2Proof.Machine
end

