-- ==== Sys2Proof/Laws/Decode.lean ====
section
/-! SUPPORT. The laws of DECODE: the look-up of all tokens, the sizes of what it produces, and the ways it completes. -/

namespace Sys2Proof.Machine

/-- A look-up that succeeds gives one index a token, each the reverse look-up of its bytes (R122). -/
theorem lookUpTokens_ok {vf : List VWord} {text : List Byte} {i : Nat} {toks : List Token} {idx : List Nat} :
    lookUpTokens vf text i toks = .ok idx ↔ toks.map (fun t => indexOf vf (t.bytes text)) = idx.map some := by
  induction toks generalizing i idx with
  | nil =>
    simp only [lookUpTokens, List.map_nil]
    constructor
    · intro h; cases h; rfl
    · intro h
      cases idx with
      | nil => rfl
      | cons => simp at h
  | cons t toks ih =>
    rw [lookUpTokens]
    cases ht : indexOf vf (t.bytes text) with
    | none => cases idx <;> simp [ht]
    | some r =>
      cases hr : lookUpTokens vf text (i + 1) toks with
      | error f =>
        cases idx with
        | nil => simp
        | cons j js =>
          simp only [List.map_cons, ht, List.cons.injEq, not_and, reduceCtorEq, false_iff]
          intro _ h
          rw [ih.2 h] at hr
          cases hr
      | ok rs =>
        cases idx with
        | nil => simp
        | cons j js =>
          simp only [Except.ok.injEq, List.cons.injEq, List.map_cons, ht, Option.some.injEq]
          rw [← ih (i := i + 1), hr]
          simp

/-- A look-up fails exactly at the first token that is not in the vocabulary (R122). -/
theorem lookUpTokens_error {vf : List VWord} {text : List Byte} {i : Nat} {toks : List Token} {f : Failure} :
    lookUpTokens vf text i toks = .error f ↔ ∃ k t, toks[k]? = some t ∧ indexOf vf (t.bytes text) = none ∧
      (∀ j u, j < k → toks[j]? = some u → indexOf vf (u.bytes text) ≠ none) ∧
      f = { kind := .unknownWord, info := i + k, off := t.off, len := t.len } := by
  induction toks generalizing i with
  | nil => simp [lookUpTokens]
  | cons t toks ih =>
    rw [lookUpTokens]
    cases ht : indexOf vf (t.bytes text) with
    | none =>
      simp only [Except.error.injEq]
      constructor
      · rintro rfl
        exact ⟨0, t, rfl, ht, fun j u hj => absurd hj (by omega), rfl⟩
      · rintro ⟨k, u, hk, hu, hall, rfl⟩
        cases k with
        | zero => simp only [List.getElem?_cons_zero, Option.some.injEq] at hk; subst hk; rfl
        | succ k => exact absurd ht (hall 0 t (by omega) rfl)
    | some r =>
      have key : (∃ k u, (t :: toks)[k]? = some u ∧ indexOf vf (u.bytes text) = none ∧
          (∀ j v, j < k → (t :: toks)[j]? = some v → indexOf vf (v.bytes text) ≠ none) ∧
          f = { kind := .unknownWord, info := i + k, off := u.off, len := u.len }) ↔
          lookUpTokens vf text (i + 1) toks = .error f := by
        rw [ih]
        constructor
        · rintro ⟨k, u, hk, hu, hall, rfl⟩
          cases k with
          | zero => simp only [List.getElem?_cons_zero, Option.some.injEq] at hk; subst hk; rw [ht] at hu; cases hu
          | succ k =>
            refine ⟨k, u, by simpa using hk, hu, fun j v hj hv => hall (j + 1) v (by omega) (by simpa using hv), ?_⟩
            congr 1
            omega
        · rintro ⟨k, u, hk, hu, hall, rfl⟩
          refine ⟨k + 1, u, by simpa using hk, hu, fun j v hj hv => ?_, by congr 1; omega⟩
          cases j with
          | zero => simp only [List.getElem?_cons_zero, Option.some.injEq] at hv; subst hv; rw [ht]; simp
          | succ j => exact hall j v (by omega) (by simpa using hv)
      rw [key]
      cases lookUpTokens vf text (i + 1) toks <;> simp

theorem lookUpTokens_length {vf : List VWord} {text : List Byte} {i : Nat} {toks : List Token} {idx : List Nat}
    (h : lookUpTokens vf text i toks = .ok idx) : idx.length = toks.length := by
  have := congrArg List.length (lookUpTokens_ok.1 h)
  simpa using this.symm

theorem reassemble_length (idx : List Nat) :
    (reassemble idx).length = messageLengthForWordCount idx.length / 8 := by simp [reassemble]

/-- The entropy of a legal word count has a legal length (R94). -/
theorem reassemble_length_mem {idx : List Nat} (h : idx.length ∈ wordCounts) : (reassemble idx).length ∈ entLens := by
  rw [reassemble_length]
  rw [mem_wordCounts] at h
  rcases h with h | h | h | h | h <;> rw [h] <;> decide

/-- The ways DECODE completes, each with its condition (R125, R151). -/
theorem decodeComplete_cases (s : State) :
    (s.vok = false ∧ decodeComplete s = raise { kind := .invalidVocabularySize, info := 0, off := 0, len := 0 } s) ∨
    (s.vok = true ∧ s.params.txtCap < s.txtLen.toNat ∧
      decodeComplete s = raise { kind := .textTooLong, info := 0, off := 0, len := 0 } s) ∨
    (s.vok = true ∧ s.txtLen.toNat ≤ s.params.txtCap ∧ (tokenize s.params.ws s.text).length ∉ wordCounts ∧
      decodeComplete s = raise { kind := .invalidWordCount, info := (tokenize s.params.ws s.text).length, off := 0, len := 0 } s) ∨
    (s.vok = true ∧ s.txtLen.toNat ≤ s.params.txtCap ∧ (tokenize s.params.ws s.text).length ∈ wordCounts ∧
      ∃ f, lookUpTokens s.vf s.text 0 (tokenize s.params.ws s.text) = .error f ∧ decodeComplete s = raise f s) ∨
    (s.vok = true ∧ s.txtLen.toNat ≤ s.params.txtCap ∧ (tokenize s.params.ws s.text).length ∈ wordCounts ∧
      ∃ idx, lookUpTokens s.vf s.text 0 (tokenize s.params.ws s.text) = .ok idx ∧
        ((checksum (reassemble idx) ≠ embeddedChecksum idx ∧
            decodeComplete s = raise { kind := .checksumMismatch, info := 0, off := 0, len := 0 } s) ∨
         (checksum (reassemble idx) = embeddedChecksum idx ∧
            decodeComplete s = reportSuccess (storeEntropy (reassemble idx) s)))) := by
  unfold decodeComplete decodeOutcome
  by_cases h1 : s.vok = false
  · exact .inl ⟨h1, by rw [if_pos h1]⟩
  have h1' : s.vok = true := by simpa using h1
  by_cases h2 : s.params.txtCap < s.txtLen.toNat
  · exact .inr (.inl ⟨h1', h2, by rw [if_neg h1, if_pos h2]⟩)
  have h2' : s.txtLen.toNat ≤ s.params.txtCap := by omega
  by_cases h3 : (tokenize s.params.ws s.text).length ∉ wordCounts
  · exact .inr (.inr (.inl ⟨h1', h2', h3, by simp only [if_neg h1, if_neg h2, if_pos h3]⟩))
  have h3' : (tokenize s.params.ws s.text).length ∈ wordCounts := by simpa using h3
  cases h4 : lookUpTokens s.vf s.text 0 (tokenize s.params.ws s.text) with
  | error f =>
    exact .inr (.inr (.inr (.inl ⟨h1', h2', h3', f, rfl, by simp only [if_neg h1, if_neg h2, if_neg h3, h4]⟩)))
  | ok idx =>
    refine .inr (.inr (.inr (.inr ⟨h1', h2', h3', idx, rfl, ?_⟩)))
    by_cases h5 : checksum (reassemble idx) = embeddedChecksum idx
    · exact .inr ⟨h5, by simp only [if_neg h1, if_neg h2, if_neg h3, h4, verifyIndices, if_pos h5]⟩
    · exact .inl ⟨h5, by simp only [if_neg h1, if_neg h2, if_neg h3, h4, verifyIndices, if_neg h5]⟩

/-- The completion of DECODE is the engine's step when `OP` = 2 (R143). -/
theorem complete_decode {s : State} (h : s.op = 2) : complete s = .next (decodeComplete s) := by
  rw [complete, if_neg (by rw [h]; decide), if_pos h]

/-- The failure step of DECODE clears DECODE's outputs (R152). -/
theorem raise_decode (f : Failure) {s : State} (h : s.op = 2) : raise f s = reportFailure f (clearEntropy s) := by
  simp [raise, clearOutputs, h]

/-- A success of DECODE leaves every byte outside `EOUT` alone. -/
theorem storeEntropy_outside {s : State} {e : List Byte} (he : e.length ≤ 32) {x : Nat} (hx : ¬ (0x40 ≤ x ∧ x < 0x60)) :
    (storeEntropy e s).mem.read x = s.mem.read x := by
  simp only [storeEntropy]
  rw [Memory.read_writeBytes_of_outside _ _ _ (by unfold eoutBase; omega), Memory.read_clear,
    if_neg (by unfold eoutBase entCap; omega)]

/-- A byte of the entropy after a success (R125). -/
theorem storeEntropy_in {s : State} (hm : s.mem.wf = true) {e : List Byte} {k : Nat} (hk : k < e.length) :
    (storeEntropy e s).mem.read (eoutBase + k) = e.getD k 0 :=
  Memory.read_writeBytes (Memory.wf_clear hm _ _) _ _ hk

/-- `EOUT` beyond the entropy reads 0 after a success (R125). -/
theorem storeEntropy_beyond {s : State} {e : List Byte} {k : Nat} (hk : e.length ≤ k) (h32 : k < 32) :
    (storeEntropy e s).mem.read (eoutBase + k) = 0 := by
  simp only [storeEntropy]
  rw [Memory.read_writeBytes_of_outside _ _ _ (by omega), Memory.read_clear, if_pos (by unfold entCap; omega)]

theorem reassemble_le {idx : List Nat} (h : idx.length ∈ wordCounts) : (reassemble idx).length ≤ 32 := by
  have := mem_entLens.1 (reassemble_length_mem h); omega

end Sys2Proof.Machine
end

