-- ==== Sys2Proof/Laws/Encoding.lean ====
section
/-! SUPPORT. The three fields of a transaction record (30_encoding.md R60) read back. -/

namespace Sys2Proof

/-- The record as one number: `w`, then the address, then the data. -/
theorem record_toNat (w : BitVec 1) (a : Addr) (d : Word32) :
    (record w a d).toNat = w.toNat * 2 ^ 48 + (a.toNat * 2 ^ 32 + d.toNat) := by
  have hd := d.isLt
  have ha := a.isLt
  have h1 : (a ++ d).toNat = a.toNat * 2 ^ 32 + d.toNat := by
    rw [BitVec.toNat_append, ← Nat.shiftLeft_add_eq_or_of_lt hd, Nat.shiftLeft_eq]
  have h2 : (w ++ (a ++ d)).toNat = w.toNat * 2 ^ 48 + (a ++ d).toNat := by
    rw [BitVec.toNat_append, ← Nat.shiftLeft_add_eq_or_of_lt (a ++ d).isLt, Nat.shiftLeft_eq]
  rw [← h1]
  exact h2

@[simp] theorem record_direction (w : BitVec 1) (a : Addr) (d : Word32) :
    (record w a d).getLsbD 48 = decide (w = 1#1) := by
  have h := record_toNat w a d
  have hd := d.isLt
  have ha := a.isLt
  have hw := w.isLt
  have e : (record w a d).getLsbD 48 = (record w a d).toNat.testBit 48 := rfl
  rw [e, h, Nat.testBit_eq_decide_div_mod_eq]
  congr 1
  rw [eq_iff_iff, ← BitVec.toNat_inj]
  simp only [BitVec.toNat_ofNat]
  omega

@[simp] theorem record_direction_getElem (w : BitVec 1) (a : Addr) (d : Word32) :
    (record w a d)[48] = decide (w = 1#1) := record_direction w a d

@[simp] theorem record_addr (w : BitVec 1) (a : Addr) (d : Word32) : (record w a d).extractLsb' 32 16 = a := by
  have h := record_toNat w a d
  have hd := d.isLt
  have ha := a.isLt
  apply BitVec.eq_of_toNat_eq
  rw [BitVec.extractLsb'_toNat, h, Nat.shiftRight_eq_div_pow]
  omega

@[simp] theorem record_data (w : BitVec 1) (a : Addr) (d : Word32) : (record w a d).extractLsb' 0 32 = d := by
  have h := record_toNat w a d
  have hd := d.isLt
  apply BitVec.eq_of_toNat_eq
  rw [BitVec.extractLsb'_toNat, h, Nat.shiftRight_zero]
  omega

end Sys2Proof
end

