-- ==== Sys2Proof/Laws/Operands.lean ====
section
/-! SUPPORT. The address map read as equations: which addresses name which location (20_memory.md R41), and where a
byte location stands in memory. Callers cite these and do not unfold `locate`. -/

namespace Sys2Proof.Machine

theorem locate_eq_ein {p : Params} {a : Addr} {i : Nat} :
    locate p a = .ein i ↔ i < 32 ∧ a.toNat = einBase + i := by
  unfold locate einBase
  generalize a.toNat = n
  unfold locateAt
  split
  · unfold locateRegister
    split <;> simp only [reduceCtorEq, false_iff] <;> omega
  · repeat' split
    all_goals try unfold locateSlot
    all_goals try split
    all_goals try split
    all_goals simp only [reduceCtorEq, false_iff, Loc.ein.injEq]
    all_goals omega

theorem locate_eq_eout {p : Params} {a : Addr} {i : Nat} :
    locate p a = .eout i ↔ i < 32 ∧ a.toNat = eoutBase + i := by
  unfold locate eoutBase
  generalize a.toNat = n
  unfold locateAt
  split
  · unfold locateRegister
    split <;> simp only [reduceCtorEq, false_iff] <;> omega
  · repeat' split
    all_goals try unfold locateSlot
    all_goals try split
    all_goals try split
    all_goals simp only [reduceCtorEq, false_iff, Loc.eout.injEq]
    all_goals omega

theorem locate_eq_midx {p : Params} {a : Addr} {i : Fin 24} :
    locate p a = .midx i ↔ a.toNat = midxBase + i := by
  unfold locate midxBase
  generalize a.toNat = n
  unfold locateAt
  split
  · unfold locateRegister
    split <;> simp only [reduceCtorEq, false_iff] <;> omega
  · repeat' split
    all_goals try unfold locateSlot
    all_goals try split
    all_goals try split
    all_goals simp only [reduceCtorEq, false_iff, Loc.midx.injEq, Fin.ext_iff, Fin.val_ofNat]
    all_goals omega

theorem locate_eq_mwLen {p : Params} {a : Addr} {i : Fin 24} :
    locate p a = .mwLen i ↔ a.toNat = slotBase i := by
  unfold locate slotBase slotWindow
  generalize a.toNat = n
  unfold locateAt
  split
  · unfold locateRegister
    split <;> simp only [reduceCtorEq, false_iff] <;> omega
  · repeat' split
    all_goals try unfold locateSlot
    all_goals try split
    all_goals try split
    all_goals simp only [reduceCtorEq, false_iff, Loc.mwLen.injEq, Fin.ext_iff, Fin.val_ofNat]
    all_goals omega

theorem locate_eq_mwB {p : Params} {a : Addr} {i j : Nat} :
    locate p a = .mwB i j ↔ i < 24 ∧ j < p.wordMax ∧ j < 31 ∧ a.toNat = slotBase i + 1 + j := by
  unfold locate slotBase slotWindow
  generalize a.toNat = n
  unfold locateAt
  split
  · unfold locateRegister
    split <;> simp only [reduceCtorEq, false_iff] <;> omega
  · repeat' split
    all_goals try unfold locateSlot
    all_goals try split
    all_goals try split
    all_goals simp only [reduceCtorEq, false_iff, Loc.mwB.injEq]
    all_goals omega

theorem locate_eq_txt {p : Params} {a : Addr} {k : Nat} :
    locate p a = .txt k ↔ k < p.txtCap ∧ a.toNat = txtBase + k := by
  unfold locate txtBase
  generalize a.toNat = n
  unfold locateAt
  split
  · unfold locateRegister
    split <;> simp only [reduceCtorEq, false_iff] <;> omega
  · repeat' split
    all_goals try unfold locateSlot
    all_goals try split
    all_goals try split
    all_goals simp only [reduceCtorEq, false_iff, Loc.txt.injEq]
    all_goals omega

theorem locate_eq_cmd {p : Params} {a : Addr} : locate p a = .cmd ↔ a.toNat = 0 := by
  unfold locate
  generalize a.toNat = n
  unfold locateAt
  split
  · unfold locateRegister
    split <;> simp only [reduceCtorEq, false_iff] <;> omega
  · repeat' split
    all_goals try unfold locateSlot
    all_goals try split
    all_goals try split
    all_goals simp only [reduceCtorEq, false_iff]
    all_goals omega

theorem locate_eq_status {p : Params} {a : Addr} : locate p a = .status ↔ a.toNat = 1 := by
  unfold locate
  generalize a.toNat = n
  unfold locateAt
  split
  · unfold locateRegister
    split <;> simp only [reduceCtorEq, false_iff] <;> omega
  · repeat' split
    all_goals try unfold locateSlot
    all_goals try split
    all_goals try split
    all_goals simp only [reduceCtorEq, false_iff]
    all_goals omega

theorem locate_eq_err {p : Params} {a : Addr} : locate p a = .err ↔ a.toNat = 2 := by
  unfold locate
  generalize a.toNat = n
  unfold locateAt
  split
  · unfold locateRegister
    split <;> simp only [reduceCtorEq, false_iff] <;> omega
  · repeat' split
    all_goals try unfold locateSlot
    all_goals try split
    all_goals try split
    all_goals simp only [reduceCtorEq, false_iff]
    all_goals omega

theorem locate_eq_errInfo {p : Params} {a : Addr} : locate p a = .errInfo ↔ a.toNat = 3 := by
  unfold locate
  generalize a.toNat = n
  unfold locateAt
  split
  · unfold locateRegister
    split <;> simp only [reduceCtorEq, false_iff] <;> omega
  · repeat' split
    all_goals try unfold locateSlot
    all_goals try split
    all_goals try split
    all_goals simp only [reduceCtorEq, false_iff]
    all_goals omega

theorem locate_eq_errOff {p : Params} {a : Addr} : locate p a = .errOff ↔ a.toNat = 4 := by
  unfold locate
  generalize a.toNat = n
  unfold locateAt
  split
  · unfold locateRegister
    split <;> simp only [reduceCtorEq, false_iff] <;> omega
  · repeat' split
    all_goals try unfold locateSlot
    all_goals try split
    all_goals try split
    all_goals simp only [reduceCtorEq, false_iff]
    all_goals omega

theorem locate_eq_errLen {p : Params} {a : Addr} : locate p a = .errLen ↔ a.toNat = 5 := by
  unfold locate
  generalize a.toNat = n
  unfold locateAt
  split
  · unfold locateRegister
    split <;> simp only [reduceCtorEq, false_iff] <;> omega
  · repeat' split
    all_goals try unfold locateSlot
    all_goals try split
    all_goals try split
    all_goals simp only [reduceCtorEq, false_iff]
    all_goals omega

theorem locate_eq_einLen {p : Params} {a : Addr} : locate p a = .einLen ↔ a.toNat = 6 := by
  unfold locate
  generalize a.toNat = n
  unfold locateAt
  split
  · unfold locateRegister
    split <;> simp only [reduceCtorEq, false_iff] <;> omega
  · repeat' split
    all_goals try unfold locateSlot
    all_goals try split
    all_goals try split
    all_goals simp only [reduceCtorEq, false_iff]
    all_goals omega

theorem locate_eq_txtLen {p : Params} {a : Addr} : locate p a = .txtLen ↔ a.toNat = 7 := by
  unfold locate
  generalize a.toNat = n
  unfold locateAt
  split
  · unfold locateRegister
    split <;> simp only [reduceCtorEq, false_iff] <;> omega
  · repeat' split
    all_goals try unfold locateSlot
    all_goals try split
    all_goals try split
    all_goals simp only [reduceCtorEq, false_iff]
    all_goals omega

theorem locate_eq_eoutLen {p : Params} {a : Addr} : locate p a = .eoutLen ↔ a.toNat = 8 := by
  unfold locate
  generalize a.toNat = n
  unfold locateAt
  split
  · unfold locateRegister
    split <;> simp only [reduceCtorEq, false_iff] <;> omega
  · repeat' split
    all_goals try unfold locateSlot
    all_goals try split
    all_goals try split
    all_goals simp only [reduceCtorEq, false_iff]
    all_goals omega

theorem locate_eq_mcount {p : Params} {a : Addr} : locate p a = .mcount ↔ a.toNat = 9 := by
  unfold locate
  generalize a.toNat = n
  unfold locateAt
  split
  · unfold locateRegister
    split <;> simp only [reduceCtorEq, false_iff] <;> omega
  · repeat' split
    all_goals try unfold locateSlot
    all_goals try split
    all_goals try split
    all_goals simp only [reduceCtorEq, false_iff]
    all_goals omega

/-- Where `mem` holds a byte location is its own address. -/
theorem byteAddr_locate {p : Params} {a : Addr} {x : Nat} (h : (locate p a).byteAddr = some x) : x = a.toNat := by
  cases hl : locate p a <;> rw [hl] at h <;> simp only [Loc.byteAddr, Option.some.injEq, reduceCtorEq] at h
  · rw [locate_eq_ein] at hl; omega
  · rw [locate_eq_eout] at hl; omega
  · rw [locate_eq_mwB] at hl; omega
  · rw [locate_eq_txt] at hl; omega

/-- The byte at address `x` is a byte location exactly where R41 puts one. -/
theorem byteAddr_locate_iff {p : Params} {a : Addr} {x : Nat} :
    (locate p a).byteAddr = some x ↔ x = a.toNat ∧
      ((0x0020 ≤ x ∧ x < 0x0060) ∨
       (∃ i j, i < 24 ∧ j < p.wordMax ∧ j < 31 ∧ x = slotBase i + 1 + j) ∨
       (0x1000 ≤ x ∧ x < 0x1000 + p.txtCap)) := by
  constructor
  · intro h
    have hx := byteAddr_locate h
    refine ⟨hx, ?_⟩
    cases hl : locate p a <;> rw [hl] at h <;> simp only [Loc.byteAddr, reduceCtorEq] at h
    · rw [locate_eq_ein] at hl; unfold einBase at hl; omega
    · rw [locate_eq_eout] at hl; unfold eoutBase at hl; omega
    · rename_i i j; rw [locate_eq_mwB] at hl; exact .inr (.inl ⟨i, j, hl.1, hl.2.1, hl.2.2.1, by omega⟩)
    · rw [locate_eq_txt] at hl; unfold txtBase at hl; omega
  · rintro ⟨hx, h | ⟨i, j, hi, hj, hj', h⟩ | h⟩
    · by_cases h2 : x < 0x40
      · rw [(locate_eq_ein (p := p) (a := a) (i := x - 0x20)).2 (by unfold einBase; omega)]
        simp only [Loc.byteAddr, einBase]; exact congrArg some (by omega)
      · rw [(locate_eq_eout (p := p) (a := a) (i := x - 0x40)).2 (by unfold eoutBase; omega)]
        simp only [Loc.byteAddr, eoutBase]; exact congrArg some (by omega)
    · rw [(locate_eq_mwB (p := p) (a := a) (i := i) (j := j)).2 ⟨hi, hj, hj', by omega⟩]
      simp only [Loc.byteAddr]; exact congrArg some (by omega)
    · rw [(locate_eq_txt (p := p) (a := a) (k := x - 0x1000)).2 (by unfold txtBase; omega)]
      simp only [Loc.byteAddr, txtBase]; exact congrArg some (by omega)

end Sys2Proof.Machine
end

