-- ==== Sys2Proof/Laws/Ops.lean ====
section
/-! SUPPORT. Everything a host transaction can do, said once: the inversion lemmas of the host write, of the command
decode and of `exec`. Callers cite them and do not unfold the map. -/

namespace Sys2Proof.Machine

/-- Everything a command word can do (R63). -/
theorem command_cases (c : Word32) (s : State) :
    (c = 1#32 ∧ command c s = start 1 s) ∨ (c = 2#32 ∧ command c s = start 2 s) ∨
      (c ≠ 1#32 ∧ c ≠ 2#32 ∧ command c s = s) := by
  unfold command
  by_cases h1 : c = 1#32
  · exact .inl ⟨h1, if_pos h1⟩
  · by_cases h2 : c = 2#32
    · exact .inr (.inl ⟨h2, by rw [if_neg h1, if_pos h2]⟩)
    · exact .inr (.inr ⟨h1, h2, by rw [if_neg h1, if_neg h2]⟩)

/-- A write while busy is dropped (R47). -/
theorem memWrite_busy {s : State} (h : s.busy = true) (a : Addr) (v : Word32) : memWrite a v s = s := by
  simp [memWrite, h]

/-- Everything a host write can do while the block is idle (R43). -/
theorem memWrite_cases {s : State} (h : s.busy = false) (a : Addr) (v : Word32) :
    (locate s.params a = .cmd ∧ memWrite a v s = command v s) ∨
    (locate s.params a = .einLen ∧ memWrite a v s = { s with einLen := v.setWidth 16 }) ∨
    (locate s.params a = .txtLen ∧ memWrite a v s = { s with txtLen := v.setWidth 16 }) ∨
    ((∃ i, locate s.params a = .ein i ∨ locate s.params a = .txt i) ∧
      memWrite a v s = { s with mem := s.mem.write a.toNat (v.setWidth 8) }) ∨
    ((locate s.params a).writable = false ∧ locate s.params a ≠ .cmd ∧ memWrite a v s = s) := by
  unfold memWrite
  rw [h, if_neg (by simp)]
  cases hl : locate s.params a with
  | cmd => exact .inl ⟨rfl, rfl⟩
  | einLen => exact .inr (.inl ⟨rfl, rfl⟩)
  | txtLen => exact .inr (.inr (.inl ⟨rfl, rfl⟩))
  | ein i => rw [locate_eq_ein] at hl; exact .inr (.inr (.inr (.inl ⟨⟨i, .inl rfl⟩, by rw [hl.2]⟩)))
  | txt k => rw [locate_eq_txt] at hl; exact .inr (.inr (.inr (.inl ⟨⟨k, .inr rfl⟩, by rw [hl.2]⟩)))
  | status => exact .inr (.inr (.inr (.inr ⟨rfl, by simp, rfl⟩)))
  | err => exact .inr (.inr (.inr (.inr ⟨rfl, by simp, rfl⟩)))
  | errInfo => exact .inr (.inr (.inr (.inr ⟨rfl, by simp, rfl⟩)))
  | errOff => exact .inr (.inr (.inr (.inr ⟨rfl, by simp, rfl⟩)))
  | errLen => exact .inr (.inr (.inr (.inr ⟨rfl, by simp, rfl⟩)))
  | eoutLen => exact .inr (.inr (.inr (.inr ⟨rfl, by simp, rfl⟩)))
  | mcount => exact .inr (.inr (.inr (.inr ⟨rfl, by simp, rfl⟩)))
  | eout i => exact .inr (.inr (.inr (.inr ⟨rfl, by simp, rfl⟩)))
  | midx i => exact .inr (.inr (.inr (.inr ⟨rfl, by simp, rfl⟩)))
  | mwLen i => exact .inr (.inr (.inr (.inr ⟨rfl, by simp, rfl⟩)))
  | mwB i j => exact .inr (.inr (.inr (.inr ⟨rfl, by simp, rfl⟩)))
  | unmapped => exact .inr (.inr (.inr (.inr ⟨rfl, by simp, rfl⟩)))

/-- What a host transaction can make of a state. -/
inductive HostEffect (s : State) : State → Prop where
  | none : HostEffect s s
  | started (c : BitVec 2) (idle : s.busy = false) (hc : c = 1 ∨ c = 2) : HostEffect s (start c s)
  | einLen (v : BitVec 16) (idle : s.busy = false) : HostEffect s { s with einLen := v }
  | txtLen (v : BitVec 16) (idle : s.busy = false) : HostEffect s { s with txtLen := v }
  | byte (a : Addr) (b : Byte) (idle : s.busy = false)
      (ha : ∃ i, locate s.params a = .ein i ∨ locate s.params a = .txt i) :
      HostEffect s { s with mem := s.mem.write a.toNat b }
  | read (v : Word32) : HostEffect s { s with rdata := v }

theorem issue_effect (s : State) {c : BitVec 2} (hc : c = 1 ∨ c = 2) : HostEffect s (issue c s) := by
  unfold issue
  cases h : s.busy
  · exact .started c h hc
  · exact .none

theorem memWrite_effect (a : Addr) (v : Word32) (s : State) : HostEffect s (memWrite a v s) := by
  cases h : s.busy
  · rcases memWrite_cases h a v with ⟨_, e⟩ | ⟨_, e⟩ | ⟨_, e⟩ | ⟨ha, e⟩ | ⟨_, _, e⟩ <;> rw [e]
    · rcases command_cases v s with ⟨_, e⟩ | ⟨_, e⟩ | ⟨_, _, e⟩ <;> rw [e]
      · exact .started 1 h (.inl rfl)
      · exact .started 2 h (.inr rfl)
      · exact .none
    · exact .einLen _ h
    · exact .txtLen _ h
    · exact .byte a _ h ha
    · exact .none
  · rw [memWrite_busy h]; exact .none

/-- Every instruction answers a next state, and this is all it can be. -/
theorem exec_effect (i : Instr) (s : State) : ∃ t, exec i s = .next t ∧ HostEffect s t := by
  cases i with
  | nop => exact ⟨s, rfl, .none⟩
  | encode => exact ⟨_, rfl, issue_effect s (.inl rfl)⟩
  | decode => exact ⟨_, rfl, issue_effect s (.inr rfl)⟩
  | wr a v => exact ⟨_, rfl, memWrite_effect a v s⟩
  | rd a => exact ⟨_, rfl, .read _⟩

end Sys2Proof.Machine
end

