-- ==== Sys2Proof/Laws/Frames.lean ====
section
/-! SUPPORT. The address map read from the outside: unmapped and read-only addresses, and when two states read alike at
an address. -/

namespace Sys2Proof.Machine

/-- An address of the register, buffer and slot windows survives its 16 bits. -/
theorem ofNat16_toNat {n : Nat} (h : n < 65536) : (BitVec.ofNat 16 n).toNat = n := by
  rw [BitVec.toNat_ofNat]; omega

/-- The low bits of an offered value, in the two spellings (R44). -/
theorem setWidth_eq_extract16 (v : Word32) : v.setWidth 16 = v.extractLsb' 0 16 := by
  apply BitVec.eq_of_toNat_eq; simp [BitVec.extractLsb'_toNat]

theorem setWidth_eq_extract8 (v : Word32) : v.setWidth 8 = v.extractLsb' 0 8 := by
  apply BitVec.eq_of_toNat_eq; simp [BitVec.extractLsb'_toNat]

/-- Two states that agree on what a location holds read alike there (R42). -/
theorem memRead_eq_of {s t : State} {b : Addr} (hp : t.params = s.params)
    (h1 : ∀ x, (locate s.params b).byteAddr = some x → t.mem.read x = s.mem.read x)
    (hst : t.statusWord = s.statusWord) (he : SameReport s t)
    (hm : t.mcount = s.mcount ∧ t.midx = s.midx ∧ t.mwLen = s.mwLen) (ho : t.eoutLen = s.eoutLen)
    (hel : locate s.params b = .einLen → t.einLen = s.einLen)
    (htl : locate s.params b = .txtLen → t.txtLen = s.txtLen) : memRead t b = memRead s b := by
  obtain ⟨e1, e2, e3, e4, e5⟩ := he
  obtain ⟨m1, m2, m3⟩ := hm
  unfold memRead
  rw [hp]
  cases hl : locate s.params b with
  | einLen => simp only [hel hl]
  | txtLen => simp only [htl hl]
  | ein i => rw [hl] at h1; simp only [h1 _ rfl]
  | eout i => rw [hl] at h1; simp only [h1 _ rfl]
  | mwB i j => rw [hl] at h1; simp only [h1 _ rfl]
  | txt k => rw [hl] at h1; simp only [h1 _ rfl]
  | _ => simp only [hst, e1, e2, e3, e4, m1, m2, m3, ho]

/-- The addresses the table of R41 leaves unmapped are unmapped. -/
theorem locate_unmapped {p : Params} {a : Addr} (hw : p.Wf) (h : UnmappedAddr p a.toNat) : locate p a = .unmapped := by
  have h31 := hw.2.1
  unfold UnmappedAddr at h
  cases hl : locate p a with
  | unmapped => rfl
  | cmd => rw [locate_eq_cmd] at hl; rcases h with h | h | h | h | ⟨i, j, h⟩ <;> omega
  | status => rw [locate_eq_status] at hl; rcases h with h | h | h | h | ⟨i, j, h⟩ <;> omega
  | err => rw [locate_eq_err] at hl; rcases h with h | h | h | h | ⟨i, j, h⟩ <;> omega
  | errInfo => rw [locate_eq_errInfo] at hl; rcases h with h | h | h | h | ⟨i, j, h⟩ <;> omega
  | errOff => rw [locate_eq_errOff] at hl; rcases h with h | h | h | h | ⟨i, j, h⟩ <;> omega
  | errLen => rw [locate_eq_errLen] at hl; rcases h with h | h | h | h | ⟨i, j, h⟩ <;> omega
  | einLen => rw [locate_eq_einLen] at hl; rcases h with h | h | h | h | ⟨i, j, h⟩ <;> omega
  | txtLen => rw [locate_eq_txtLen] at hl; rcases h with h | h | h | h | ⟨i, j, h⟩ <;> omega
  | eoutLen => rw [locate_eq_eoutLen] at hl; rcases h with h | h | h | h | ⟨i, j, h⟩ <;> omega
  | mcount => rw [locate_eq_mcount] at hl; rcases h with h | h | h | h | ⟨i, j, h⟩ <;> omega
  | ein i => rw [locate_eq_ein] at hl; unfold einBase at hl; rcases h with h | h | h | h | ⟨i, j, h⟩ <;> omega
  | eout i => rw [locate_eq_eout] at hl; unfold eoutBase at hl; rcases h with h | h | h | h | ⟨i, j, h⟩ <;> omega
  | midx i => rw [locate_eq_midx] at hl; unfold midxBase at hl; rcases h with h | h | h | h | ⟨i, j, h⟩ <;> omega
  | mwLen i => rw [locate_eq_mwLen] at hl; unfold slotBase slotWindow at hl; rcases h with h | h | h | h | ⟨i, j, h⟩ <;> omega
  | mwB i j => rw [locate_eq_mwB] at hl; unfold slotBase slotWindow at hl; rcases h with h | h | h | h | ⟨i, j, h⟩ <;> omega
  | txt k => rw [locate_eq_txt] at hl; unfold txtBase at hl; rcases h with h | h | h | h | ⟨i, j, h⟩ <;> omega

/-- A write of a read-only or unmapped address does nothing (R45, R46). -/
theorem wr_ignored {s : State} {a : Addr} {v : Word32} (h : (locate s.params a).writable = false)
    (hc : locate s.params a ≠ .cmd) : exec (.wr a v) s = .next s := by
  cases hb : s.busy
  · rcases memWrite_cases hb a v with ⟨e, _⟩ | ⟨e, _⟩ | ⟨e, _⟩ | ⟨⟨i, e | e⟩, _⟩ | ⟨_, _, e⟩
    · exact absurd e hc
    · rw [e] at h; cases h
    · rw [e] at h; cases h
    · rw [e] at h; cases h
    · rw [e] at h; cases h
    · simp [exec, execWr, e]
  · simp [exec, execWr, memWrite_busy hb]

end Sys2Proof.Machine
end

