-- ==== Sys2Proof/Laws/Invariant.lean ====
section
/-! SUPPORT. The operations that keep the invariant: a start, a buffer write, the failure step. -/

namespace Sys2Proof.Machine

/-- In a state of the invariant the configuration is well-formed (R6). -/
theorem Inv.configWf {s : State} (h : Inv s) : s.ConfigWf := ⟨h.params_wf, h.src_fits⟩

/-- A start keeps the invariant (R141). -/
theorem inv_start {s : State} (h : Inv s) (c : BitVec 2) (hc : c = 1 ∨ c = 2) : Inv (start c s) :=
  { h with
    busy_iff_op := ⟨fun _ => hc, fun _ => rfl⟩
    idle_op := fun e => by cases e
    not_busy_done := fun e => by cases e.2
    errf_seen := fun _ _ => .inl rfl }

/-- A host write of a buffer byte keeps the invariant (R43, R44). -/
theorem inv_byte {s : State} (h : Inv s) (a : Addr) (b : Byte)
    (ha : ∃ i, locate s.params a = .ein i ∨ locate s.params a = .txt i) :
    Inv { s with mem := s.mem.write a.toNat b } := by
  obtain ⟨i, ha⟩ := ha
  have h31 := h.params_wf.2.1
  have hr : (0x20 ≤ a.toNat ∧ a.toNat < 0x40) ∨ 0x1000 ≤ a.toNat := by
    rcases ha with ha | ha
    · rw [locate_eq_ein] at ha; unfold einBase at ha; omega
    · rw [locate_eq_txt] at ha; unfold txtBase at ha; omega
  have hslot : ∀ i j, i < 24 → j < 31 → (s.mem.write a.toNat b).read (slotBase i + 1 + j) = s.mem.read (slotBase i + 1 + j) :=
    fun i j hi hj => Memory.read_write_ne _ _ (by unfold slotBase slotWindow; omega)
  exact { h with
    mem_wf := Memory.wf_write h.mem_wf _ _
    mem_mapped := fun c hc => by
      rcases Memory.mem_write hc with hc | hc
      · exact h.mem_mapped c hc
      · rw [hc]
        rcases ha with ha | ha
        · exact ⟨a, by rw [ha]; rw [locate_eq_ein] at ha; rw [ha.2]; rfl⟩
        · exact ⟨a, by rw [ha]; rw [locate_eq_txt] at ha; rw [ha.2]; rfl⟩
    mwB_tail := fun i j h1 h2 => by rw [hslot _ _ i.isLt (by simp only at h2; omega)]; exact h.mwB_tail i j h1 h2
    eout_tail := fun i h1 h2 => by
      rw [Memory.read_write_ne _ _ (by unfold eoutBase; omega)]; exact h.eout_tail i h1 h2
    slots_spell := fun i hi => by
      rw [← h.slots_spell i hi]
      have := h.mwLen_le i
      exact Memory.readBytes_congr fun k hk => hslot _ _ i.isLt (by simp only at hk; omega) }

/-- A failure report keeps the invariant where the cleared outputs fit it (R152). -/
theorem inv_report_failure {s t : State} (h : Inv s) (f : Failure) (hp : t.params = s.params) (hsf : t.srcFits = s.srcFits) (hvok : t.vok = s.vok) (hvf : t.vf = s.vf)
    (hk : f.kind = .invalidVocabularySize ↔ s.vok = false)
    (hu : f.kind ≠ .unknownWord → f.off = 0 ∧ f.len = 0)
    (hinfo : f.kind ≠ .unknownWord → f.kind ≠ .invalidEntropyLength → f.kind ≠ .invalidWordCount → f.info = 0)
    (hm : t.mem.wf = true) (hmm : ∀ c ∈ t.mem, c ∈ s.mem)
    (h1 : t.mcount.toNat = 0 ∨ t.mcount.toNat ∈ wordCounts) (h2 : t.eoutLen.toNat = 0 ∨ t.eoutLen.toNat ∈ entLens)
    (h3 : ∀ i : Fin 24, t.mcount.toNat ≤ i → t.midx.get i = 0) (h4 : ∀ i : Fin 24, t.mcount.toNat ≤ i → t.mwLen.get i = 0)
    (h5 : ∀ (i : Fin 24) (j : Nat), (t.mwLen.get i).toNat ≤ j → j < s.params.wordMax → t.mem.read (slotBase i + 1 + j) = 0)
    (h6 : ∀ i : Fin 24, (t.mwLen.get i).toNat ≤ s.params.wordMax)
    (h7 : ∀ i, t.eoutLen.toNat ≤ i → i < 32 → t.mem.read (eoutBase + i) = 0)
    (h8 : t.mcount.toNat ≠ 0 → s.vok = true)
    (h9 : ∀ i : Fin 24, i < t.mcount.toNat → t.slotWord i = wordOf s.vf (t.midx.get i).toNat) :
    Inv (reportFailure f t) where
  params_wf := by rw [reportFailure_params, hp]; exact h.params_wf
  src_fits := by rw [reportFailure_srcFits, hsf]; exact h.src_fits
  mem_wf := hm
  mem_mapped := fun c hc => by rw [reportFailure_params, hp]; exact h.mem_mapped c (hmm c hc)
  vocab_size := fun e => by rw [reportFailure_vf, hvf]; exact h.vocab_size (by rw [← hvok]; exact e)
  vocab_fits := fun e => by rw [reportFailure_vf, reportFailure_params, hvf, hp]; exact h.vocab_fits (by rw [← hvok]; exact e)
  busy_iff_op := by simp
  idle_op := fun _ => rfl
  not_busy_done := by simp
  errf_iff := by
    rw [reportFailure_errf, reportFailure_err]
    cases f.kind <;> simp [ErrKind.code]
  no_vocab_err := fun e => by
    rw [reportFailure_vok, hvok] at e
    rw [reportFailure_err, reportFailure_errf, hk.2 e]
    exact ⟨rfl, rfl⟩
  mcount_legal := h1
  eoutLen_legal := h2
  midx_tail := h3
  mwLen_tail := h4
  mwB_tail := fun i j a b => h5 i j a (by rw [← hp]; exact b)
  mwLen_le := fun i => by rw [reportFailure_params, hp]; exact h6 i
  eout_tail := h7
  mcount_vok := fun e => by rw [reportFailure_vok, hvok]; exact h8 e
  slots_spell := fun i hi => by rw [reportFailure_vf, hvf]; exact h9 i hi
  err_ref := fun e => by
    have : f.kind ≠ .unknownWord := fun hc => e (by rw [reportFailure_err, hc]; rfl)
    obtain ⟨a, b⟩ := hu this
    rw [reportFailure_errOff, reportFailure_errLen, a, b]
    exact ⟨rfl, rfl⟩
  err_info := fun e1 e2 e3 => by
    rw [reportFailure_errInfo, hinfo (fun hc => e3 (by rw [reportFailure_err, hc]; rfl)) (fun hc => e1 (by rw [reportFailure_err, hc]; rfl))
      (fun hc => e2 (by rw [reportFailure_err, hc]; rfl))]
    rfl
  err_code := by rw [reportFailure_err]; cases f.kind <;> simp [ErrKind.code]
  errf_seen := fun _ _ => .inr rfl

/-- The failure step keeps the invariant (R152). -/
theorem inv_raise {s : State} (h : Inv s) (hb : s.busy = true) (f : Failure)
    (hk : f.kind = .invalidVocabularySize ↔ s.vok = false)
    (hu : f.kind ≠ .unknownWord → f.off = 0 ∧ f.len = 0)
    (hinfo : f.kind ≠ .unknownWord → f.kind ≠ .invalidEntropyLength → f.kind ≠ .invalidWordCount → f.info = 0) :
    Inv (raise f s) := by
  have h31 := h.params_wf.2.1
  rcases h.busy_iff_op.1 hb with ho | ho
  · rw [raise_encode f ho]
    refine inv_report_failure h f rfl rfl rfl rfl hk hu hinfo (Memory.wf_clear h.mem_wf _ _) (fun c hc => Memory.mem_clear hc)
      (.inl rfl) h.eoutLen_legal (fun i _ => replicate_get _ _) (fun i _ => replicate_get _ _)
      (fun i j _ hj => read_clear_slots _ i.isLt (by omega)) (fun i => ?_) (fun i h1 h2 => ?_) (fun e => absurd rfl e)
      (fun i hi => ?_)
    · simp [clearMnemonic]
    · simp only [clearMnemonic]
      rw [Memory.read_clear, if_neg (by unfold eoutBase slotWindow; omega)]
      exact h.eout_tail i h1 h2
    · simp [clearMnemonic] at hi
  · rw [raise_decode f ho]
    have hs : ∀ i j, i < 24 → (clearEntropy s).mem.read (slotBase i + 1 + j) = s.mem.read (slotBase i + 1 + j) := fun i j hi => by
      simp only [clearEntropy]
      rw [Memory.read_clear, if_neg (by unfold eoutBase slotBase slotWindow entCap; omega)]
    refine inv_report_failure h f rfl rfl rfl rfl hk hu hinfo (Memory.wf_clear h.mem_wf _ _) (fun c hc => Memory.mem_clear hc)
      h.mcount_legal (.inl rfl) h.midx_tail h.mwLen_tail
      (fun i j h1 h2 => by rw [hs _ _ i.isLt]; exact h.mwB_tail i j h1 h2) h.mwLen_le (fun i _ hi => ?_) h.mcount_vok
      (fun i hi => ?_)
    · simp only [clearEntropy]
      rw [Memory.read_clear, if_pos (by unfold entCap; omega)]
    · rw [show (clearEntropy s).midx = s.midx from rfl, ← h.slots_spell i hi]
      exact Memory.readBytes_congr fun k _ => hs _ _ i.isLt

end Sys2Proof.Machine
end

