-- ==== Sys2Proof/Laws/PerInstr.lean ====
section
/-! SUPPORT. One lemma per instruction: its encoded code has the format and the fixed bits of its row of
opcode_table.json. -/

namespace Sys2Proof.Laws.TableRow

/-- The code of `i` has the width of its row, and its bits under the row's mask are the row's match. -/
def Statement (i : Instr) : Prop :=
  (encode i).nbits = i.row.1 ∧ (encode i).bits &&& i.row.2.1 = i.row.2.2

theorem nop : Statement .nop := ⟨rfl, rfl⟩

theorem encode : Statement .encode := ⟨rfl, rfl⟩

theorem decode : Statement .decode := ⟨rfl, rfl⟩

theorem wr (addr : Addr) (data : Word32) : Statement (.wr addr data) := by
  refine ⟨rfl, ?_⟩
  have hb : (record 1#1 addr data).toNat.testBit 48 = true := record_direction 1#1 addr data
  have h : (record 1#1 addr data).toNat &&& 2 ^ 48 = 2 ^ 48 := by
    rw [Nat.and_two_pow, hb]
    rfl
  exact h

theorem rd (addr : Addr) : Statement (.rd addr) := by
  refine ⟨rfl, ?_⟩
  have hn := record_toNat 0#1 addr 0#32
  have hb : (record 0#1 addr 0#32).toNat.testBit 48 = false := record_direction 0#1 addr 0#32
  have h1 : (record 0#1 addr 0#32).toNat &&& 2 ^ 48 = 0 := by
    rw [Nat.and_two_pow, hb]
    rfl
  have h2 : (record 0#1 addr 0#32).toNat &&& (2 ^ 32 - 1) = 0 := by
    rw [Nat.and_two_pow_sub_one_eq_mod, hn]
    simp
  have h : (record 0#1 addr 0#32).toNat &&& (2 ^ 48 ||| (2 ^ 32 - 1)) = 0 := by
    rw [Nat.and_or_distrib_left, h1, h2]
    rfl
  exact h

end Sys2Proof.Laws.TableRow
end

