-- ==== Sys2Proof/Laws/Step.lean ====
section
/-! SUPPORT. Everything one step can do, said once. -/

namespace Sys2Proof.Machine

/-- What the engine's turn can make of a state. -/
inductive EngineEffect (s : State) : State → Prop where
  | none : EngineEffect s s
  | encoded (busy : s.busy = true) (op : s.op = 1) : EngineEffect s (encodeComplete s)
  | decoded (busy : s.busy = true) (op : s.op = 2) : EngineEffect s (decodeComplete s)

theorem engineTurn_effect {s t : State} (h : engineTurn s = .next t) : EngineEffect s t := by
  unfold engineTurn at h
  split at h
  · rename_i hb
    unfold complete at h
    split at h
    · rename_i ho; cases h; exact .encoded hb ho
    · split at h
      · rename_i ho; cases h; exact .decoded hb ho
      · cases h
  · cases h; exact .none

/-- The state with its oldest event taken off. -/
def State.popped (s : State) : State := { s with pending := s.pending.tail }

theorem popped_of_nil {s : State} (h : s.pending = []) : s.popped = s := by
  cases s; simp only [State.popped] at *; subst h; rfl

theorem step_of_wf {s : State} (h : s.ConfigWf) :
    step s = match s.pending with
      | [] => engineTurn s
      | e :: _ => turn e s.popped := by
  unfold step
  rw [if_pos h]
  cases hp : s.pending <;> simp [State.popped, hp]

/-- An ill-formed configuration has no step (R6). -/
theorem step_of_not_wf {s : State} (h : ¬ s.ConfigWf) : step s = .refused .illFormedConfiguration := by
  unfold step
  rw [if_neg h]

/-- Everything a step can do, guards included. -/
theorem step_cases {s t : State} (h : step s = .next t) :
    s.ConfigWf ∧ ((¬ NextIsHost s ∧ ¬ NextIsReset s ∧ EngineEffect s.popped t) ∨
     (NextIsHost s ∧ ¬ NextIsReset s ∧ ∃ i, HostEffect s.popped t ∧ exec i s.popped = .next t) ∨
     (NextIsReset s ∧ ¬ NextIsHost s ∧ ∃ src rest, s.pending = .reset src :: rest ∧ s.params.Fits src ∧ t = resetStep src s.popped)) := by
  by_cases hw : s.ConfigWf
  · refine ⟨hw, ?_⟩
    rw [step_of_wf hw] at h
    unfold NextIsHost NextIsReset
    cases hp : s.pending with
    | nil => rw [hp] at h; rw [popped_of_nil hp]; exact .inl ⟨by simp, by simp, engineTurn_effect h⟩
    | cons e rest =>
      rw [hp] at h
      cases e with
      | host r =>
        simp only [turn, hostTurn] at h
        split at h
        · rename_i i _
          obtain ⟨t', e, ht⟩ := exec_effect i s.popped
          have h0 := h
          rw [e] at h; cases h; exact .inr (.inl ⟨by simp, by simp, i, ht, h0⟩)
        · cases h
      | engine => exact .inl ⟨by simp, by simp, engineTurn_effect h⟩
      | reset src =>
        simp only [turn, resetTurn] at h
        split at h
        · rename_i hf; cases h; exact .inr (.inr ⟨by simp, by simp, src, rest, rfl, hf, rfl⟩)
        · cases h
  · rw [step_of_not_wf hw] at h
    cases h

/-- A reset step (R170). -/
theorem step_reset {s : State} {src : List VWord} {rest : List Event} (hw : s.ConfigWf) (hf : s.params.Fits src)
    (hp : s.pending = .reset src :: rest) :
    step s = .next { State.resetOf { params := s.params, vocabSrc := src } with rdata := s.rdata, pending := rest } := by
  unfold step
  rw [if_pos hw, hp]
  simp only [turn, resetTurn]
  rw [if_pos (by exact hf), resetStep_eq]

/-- A run goes on from the next state. -/
theorem run_next {s t : State} (k : Nat) (h : step s = .next t) : Sys2Proof.core.run (k + 1) s = Sys2Proof.core.run k t := by
  have : Sys2Proof.core.step s = .next t := h
  simp only [Host.Core.run, this]

end Sys2Proof.Machine
end

