-- ==== Sys2Proof/Tests/Slice0.lean ====
section
/-! SUPPORT. The model's own tests: well-formedness, decoding of words written out from the spec, one-step tests from
the spec's vectors (95_test_vectors.md), and one witness for every obligation that has hypotheses. -/

namespace Sys2Proof.Tests

open Sys2Proof Sys2Proof.Machine

/-! Well-formed configurations (00_scope.md R6): each check refuses a term that breaks it, and accepts its bounds. -/

/-- Parameters with the default whitespace. -/
def params (wordMax txtCap : Nat) : Params := { wordMax := wordMax, txtCap := txtCap, ws := wsDefault }

theorem test_wf_reference : Params.reference.Wf := by decide

/-- (b): `WORD_MAX` below 1, above 31, and at both bounds. -/
theorem test_wf_wordMax : ¬ (params 0 256).Wf ∧ ¬ (params 32 4096).Wf ∧ (params 1 256).Wf ∧ (params 31 4096).Wf := by
  decide

/-- (c): `TXT_CAP` one below 24 · 8 + 23, one above 4096, and at both bounds. -/
theorem test_wf_txtCap : ¬ (params 8 214).Wf ∧ ¬ (params 8 4097).Wf ∧ (params 8 215).Wf ∧ (params 8 4096).Wf := by
  decide

/-- (d): whitespace without 0x20. -/
theorem test_wf_ws : ¬ Params.Wf { wordMax := 8, txtCap := 256, ws := [0x09, 0x0A] } := by decide

/-- (a): an entry of `WORD_MAX` + 1 bytes, and one of `WORD_MAX`; the count of entries is no part of it. -/
theorem test_wf_entries : ¬ Config.Wf { params := Params.reference, vocabSrc := [List.replicate 9 0x61] } ∧
    Config.Wf { params := Params.reference, vocabSrc := [List.replicate 8 0x61] } ∧
    Config.Wf { params := Params.reference, vocabSrc := [] } := by decide

/-! Decoding: every constructor from a word written out bit by bit (30_encoding.md R60, R63, opcode_table.json). -/

theorem test_decode_nop : decode (.cmd 0b00000000000000000000000000000000#32) = .ok .nop := by decide

theorem test_decode_encode : decode (.cmd 0b00000000000000000000000000000001#32) = .ok .encode := by decide

theorem test_decode_decode : decode (.cmd 0b00000000000000000000000000000010#32) = .ok .decode := by decide

/-- `WR 0x0006, 16`, the record R70 writes out. -/
theorem test_decode_wr :
    decode (.host 0b1_0000000000000110_00000000000000000000000000010000#49) = .ok (.wr 0x0006#16 16#32) := by decide

/-- `RD 0x1001`. -/
theorem test_decode_rd :
    decode (.host 0b0_0001000000000001_00000000000000000000000000000000#49) = .ok (.rd 0x1001#16) := by decide

/-- R64 and R60: a reserved command word, and a read record with data. -/
theorem test_decode_refuses : decode (.cmd 0b00000000000000000000000000000011#32) = .error .reservedCommand ∧
    decode (.host 0b0_0000000000000001_10000000000000000000000000000000#49) = .error .readDataNotZero := by decide

theorem test_decodeTableWord : decodeTableWord 32 2 = some .decode ∧
    decodeTableWord 56 (2 ^ 48 + 0x0020 * 2 ^ 32 + 0x9e) = some (.wr 0x0020#16 0x9e#32) ∧
    decodeTableWord 56 (0x0001 * 2 ^ 32) = some (.rd 0x0001#16) ∧ decodeTableWord 32 3 = none := by decide

/-! One-step tests. -/

/-- R6: a word list of the wrong count is a legal configuration, one with a word of nine bytes in slots of eight is
not: its reset state takes no step. -/
theorem test_step_refuses_ill_formed_configuration :
    let after (src : List VWord) : State :=
      { State.resetOf { params := Params.reference, vocabSrc := src } with pending := [.host (encode .encode).asRecord] }
    (match step (after [List.replicate 9 0x61]) with
      | .refused r => some r
      | .next _ | .fault _ => none) = some .illFormedConfiguration ∧
    (match step (after [List.replicate 8 0x61]) with
      | .next t => some t.op
      | .fault _ | .refused _ => none) = some 1 := by decide

/-- Four entries are enough where nothing looks beyond index 3: `abandon`, two others, `about`. -/
def fewWords : List VWord :=
  [[0x61, 0x62, 0x61, 0x6E, 0x64, 0x6F, 0x6E], [0x77, 0x31], [0x77, 0x32], [0x61, 0x62, 0x6F, 0x75, 0x74]]

/-- The reset state with `vf` in place of the vocabulary and `VOK` = 1, `ERR` = 0. -/
def idle (vf : List VWord) : State :=
  { State.resetOf { params := Params.reference, vocabSrc := [] } with vok := true, errf := false, err := 0, vf := vf }

/-- `idle` with an operation in progress. -/
def busyWith (c : BitVec 2) (vf : List VWord) (einLen txtLen : BitVec 16) (text : List Byte) : State :=
  { idle vf with busy := true, op := c, einLen := einLen, txtLen := txtLen, mem := Memory.writeBytes [] txtBase text }

/-- The outcome's state, for tests. -/
def stateOf (o : Host.Outcome State Fault Refusal) : Option State :=
  match o with
  | .next s => some s
  | .fault _ => none
  | .refused _ => none

/-- R140's example: `STATUS` = 0xA stays 0xA. -/
theorem test_nop_leaves_status :
    (stateOf (exec .nop { idle [] with done := true })).map State.statusWord = some 0xA#32 := by decide

/-- R141's example: `STATUS` = 0x8, ENCODE gives 0x9 and `OP` = 1. -/
theorem test_encode_starts : (stateOf (exec .encode (idle []))).map (fun t => (t.statusWord, t.op)) = some (0x9#32, 1#2) := by
  decide

/-- R141: DECODE after a failure (`STATUS` = 0xE) gives 0xD and `OP` = 2. -/
theorem test_decode_starts_after_failure :
    (stateOf (exec .decode { idle [] with done := true, errf := true, err := 5 })).map (fun t => (t.statusWord, t.op)) =
      some (0xD#32, 2#2) := by decide

/-- R145's example: `WR 0x0020, 0x1FF` stores `EIN[0]` = 0xFF. -/
theorem test_wr_truncates :
    (stateOf (exec (.wr 0x0020#16 0x1FF#32) (idle []))).map (fun t => (t.mem, t.einLen)) = some ([(0x20, 0xFF#8)], 0#16) := by
  decide

/-- R47: the same write while busy is dropped; R144: a reserved command starts nothing. -/
theorem test_wr_dropped_and_reserved :
    (stateOf (exec (.wr 0x0020#16 0x1FF#32) (busyWith 1 [] 0 0 []))).map State.mem = some [] ∧
    (stateOf (exec (.wr 0x0000#16 3#32) (idle []))).map State.statusWord = some 0x8#32 := by decide

/-- R146's example: after a good reset `RD 0x0001` returns 8. -/
theorem test_rd_status : (stateOf (exec (.rd 0x0001#16) (idle []))).map State.rdata = some 8#32 := by decide

/-- R41 at the edges of the reference instance: the last byte of slot 23 and of `TXT` read, the next ones do not. -/
theorem test_rd_edges :
    let s := { idle [] with mem := [(0x3E8, 0x11#8), (0x3E9, 0x22#8), (0x10FF, 0x33#8), (0x1100, 0x44#8)] }
    [0x03E8#16, 0x03E9#16, 0x10FF#16, 0x1100#16].map (memRead s) = [0x11#32, 0#32, 0x33#32, 0#32] := by decide

set_option maxRecDepth 100000 in
/-- V-E1: sixteen zero bytes give `MCOUNT` = 12, `MIDX[11]` = 3, `MW(11)` = "about", `STATUS` = 0xA; R111's corner case
`EIN_LEN` = 65535 fails with `ERR_INFO` = 524280. -/
theorem test_encode_completes :
    let t := encodeComplete (busyWith 1 fewWords 16 0 [])
    let u := encodeComplete (busyWith 1 fewWords 65535 0 [])
    t.mcount = 12 ∧ t.midx.get 0 = 0 ∧ t.midx.get 11 = 3 ∧ t.slotWord 11 = [0x61, 0x62, 0x6F, 0x75, 0x74] ∧
      t.slotWord 12 = [] ∧ t.statusWord = 0xA#32 ∧ u.err = 2 ∧ u.errInfo = 524280 ∧ u.statusWord = 0xE#32 := by decide

set_option maxRecDepth 100000 in
/-- V-E4: the indices of the source's fourth vector. -/
theorem test_groups_of_L1_4 :
    entropyGroups [0x9e, 0x88, 0x5d, 0x95, 0x2a, 0xd3, 0x62, 0xca, 0xeb, 0x4e, 0xfe, 0x34, 0xa8, 0xe9, 0x1b, 0xd2] =
      [1268, 535, 810, 685, 433, 811, 1385, 1790, 421, 570, 567, 1313] := by decide

/-- R120's example: the nine bytes `"  ab\t\ncd "` have the tokens (2, 2) and (6, 2). -/
theorem test_tokens : tokenize wsDefault [0x20, 0x20, 0x61, 0x62, 0x09, 0x0A, 0x63, 0x64, 0x20] = [⟨2, 2⟩, ⟨6, 2⟩] := by
  decide

/-- Eleven times "abandon" and once `last`, single spaces between. -/
def phrase (last : VWord) : List Byte :=
  (List.replicate 11 ([0x61, 0x62, 0x61, 0x6E, 0x64, 0x6F, 0x6E, 0x20] : List Byte)).flatten ++ last

set_option maxRecDepth 100000 in
/-- R125's example: eleven times "abandon", then "about", gives sixteen zero bytes; L1-7: the last word replaced by the
entry of index 2 fails with `ChecksumMismatch`; a last word that is no entry is `UnknownWord`, by position, offset and
length. -/
theorem test_decode_completes :
    let t := decodeComplete (busyWith 2 fewWords 0 93 (phrase [0x61, 0x62, 0x6F, 0x75, 0x74]))
    let u := decodeComplete (busyWith 2 fewWords 0 92 (phrase [0x7A, 0x7A, 0x7A, 0x7A]))
    t.eoutLen = 16 ∧ t.mem.readBytes eoutBase 32 = List.replicate 32 0 ∧ t.statusWord = 0xA#32 ∧
      (decodeComplete (busyWith 2 fewWords 0 90 (phrase [0x77, 0x32]))).err = 5 ∧
      u.err = 4 ∧ u.errInfo = 11 ∧ u.errOff = 88 ∧ u.errLen = 4 := by decide

/-- R82: of two equal entries the last one is found. -/
theorem test_indexOf_last : indexOf [[0x61], [0x62], [0x61]] [0x61] = some 2 := by decide

/-- The step runs the word placed by `withFetchWord` first, from the reset state. -/
theorem test_step_runs_fetch_word :
    (stateOf (step ((idle []).withFetchWord 32 1))).map State.statusWord = some 0x9#32 ∧
    (stateOf (step ((idle []).withFetchWord 56 (0x0001 * 2 ^ 32)))).map State.rdata = some 8#32 := by decide

/-! Witnesses: for every obligation with hypotheses, a concrete state and operands that meet all of them. -/

/-- 2048 distinct two-byte entries free of whitespace; irreducible, so that no elaboration unfolds it. -/
@[irreducible] def vocab : List VWord :=
  (List.range 2048).map fun v => [BitVec.ofNat 8 (0x41 + v / 64), BitVec.ofNat 8 (0x41 + v % 64)]

theorem vocab_length : vocab.length = 2048 := by
  unfold vocab
  rw [List.length_map]
  exact List.length_range

theorem vocab_mem {w : VWord} (h : w ∈ vocab) :
    ∃ v, v < 2048 ∧ w = [BitVec.ofNat 8 (0x41 + v / 64), BitVec.ofNat 8 (0x41 + v % 64)] := by
  unfold vocab at h
  obtain ⟨v, hv, rfl⟩ := List.mem_map.1 h
  exact ⟨v, List.mem_range.1 hv, rfl⟩

theorem vocab_fits : Params.reference.Fits vocab := fun w h => by
  obtain ⟨v, _, rfl⟩ := vocab_mem h
  show 2 ≤ 8
  decide

theorem vocab_nodup : vocab.Nodup := by
  unfold vocab
  refine List.Nodup.map_on (fun a ha b hb h => ?_) List.nodup_range
  rw [List.mem_range] at ha hb
  simp only [List.cons.injEq, and_true, ← BitVec.toNat_inj, BitVec.toNat_ofNat] at h
  omega

theorem vocab_clean : ∀ w ∈ vocab, w ≠ [] ∧ ∀ b ∈ w, b ∉ Params.reference.ws := fun w h => by
  obtain ⟨v, hv, rfl⟩ := vocab_mem h
  have key : ∀ k, k < 64 → BitVec.ofNat 8 (0x41 + k) ∉ Params.reference.ws := by decide
  refine ⟨by simp, fun b hb => ?_⟩
  rcases List.mem_cons.1 hb with rfl | hb
  · exact key _ (by omega)
  · rw [List.mem_singleton.1 hb]; exact key _ (by omega)

/-- The reset state of a good vocabulary. -/
def good : State := idle vocab

/-- The invariant of `good`, whatever the inputs are. -/
theorem test_inv_good (einLen txtLen : BitVec 16) : Inv { good with einLen := einLen, txtLen := txtLen } where
  params_wf := by show Params.reference.Wf; decide
  src_fits := rfl
  mem_wf := rfl
  mem_mapped := fun _ h => absurd h List.not_mem_nil
  vocab_size := fun _ => vocab_length
  vocab_fits := fun _ => vocab_fits
  busy_iff_op := by simp [good, idle, State.resetOf]
  idle_op := fun _ => rfl
  not_busy_done := by simp [good, idle, State.resetOf]
  errf_iff := by simp [good, idle]
  no_vocab_err := fun h => by cases h
  mcount_legal := .inl rfl
  eoutLen_legal := .inl rfl
  midx_tail := fun i _ => replicate_get _ _
  mwLen_tail := fun i _ => replicate_get _ _
  mwB_tail := fun _ _ _ _ => rfl
  mwLen_le := fun i => by simp [good, idle, State.resetOf]
  eout_tail := fun _ _ _ => rfl
  mcount_vok := fun h => absurd rfl h
  slots_spell := fun i hi => by simp [good, idle, State.resetOf] at hi
  err_ref := fun _ => ⟨rfl, rfl⟩
  err_info := fun _ _ _ => rfl
  err_code := by simp [good, idle]
  errf_seen := fun _ h => by cases h

/-- `good` with operation `c` started on the given lengths. -/
def started (c : BitVec 2) (einLen txtLen : BitVec 16) : State :=
  start c { good with einLen := einLen, txtLen := txtLen }

theorem test_inv_started (c : BitVec 2) (hc : c = 1 ∨ c = 2) (einLen txtLen : BitVec 16) : Inv (started c einLen txtLen) :=
  inv_start (test_inv_good einLen txtLen) c hc

theorem good_vok : good.vok = true := rfl

theorem good_vf : good.vf = vocab := rfl

/-- A record as the next event. -/
def withEvent (s : State) (e : Event) : State := { s with pending := [e] }

theorem test_witness_DecoderAndEncoderAreInverse : Instr.Wf (.wr 0xFFFF#16 0xFFFFFFFF#32) ∧
    decode (.cmd 2#32) = .ok .decode ∧ decode (.host 0x1FFFFFFFFFFFF#49) = .ok (.wr 0xFFFF#16 0xFFFFFFFF#32) := by decide

theorem test_witness_CommandCodesAreTheWholeWord : (idle []).busy = false ∧
    ∃ w : Word32, w ≠ 0#32 ∧ w ≠ 1#32 ∧ w ≠ 2#32 := ⟨rfl, 0xFFFFFFFF#32, by decide⟩

theorem test_witness_StepRunsTheDecodedTransaction :
    let s := withEvent (idle []) (.host 0x1_0020_0000009e#49)
    s.ConfigWf ∧ s.pending = .host 0x1_0020_0000009e#49 :: [] ∧
      decode (.host 0x1_0020_0000009e#49) = .ok (.wr 0x0020#16 0x9e#32) := by decide

theorem test_witness_CommandWordRunsItsInstruction :
    let s := withEvent (idle []) (.host (Code.cmd 1#32).asRecord)
    decode (.cmd 1#32) = .ok .encode ∧ s.ConfigWf ∧ s.pending = .host (Code.cmd 1#32).asRecord :: [] := by decide

theorem test_witness_NopHasNoEffect : (idle []).busy = false := rfl

theorem test_witness_StartWritesOpBusyAndDone : ({ idle [] with done := true, errf := true } : State).busy = false := rfl

theorem test_witness_WritesWhileBusyAreDropped :
    let s := withEvent (started 1 16 0) (.host 0x1_0020_0000009e#49)
    s.busy = true ∧ (∃ t, step s = .next t ∧ t.busy = true) ∧ ¬ NextIsReset s := by
  refine ⟨rfl, ⟨_, rfl, rfl⟩, ?_⟩
  rintro ⟨src, rest, h⟩
  cases h

theorem test_witness_ReservedCommandsAreIgnored :
    (idle []).busy = false ∧ (3#32 : Word32) ≠ 0#32 ∧ (3#32 : Word32) ≠ 1#32 ∧ (3#32 : Word32) ≠ 2#32 := by decide

/-- The last `EIN` byte and the last `TXT` byte. -/
theorem test_witness_WritesStoreTheTruncatedValue : (idle []).params.Wf ∧ (idle []).busy = false ∧ 31 < 32 ∧
    255 < (idle []).params.txtCap := by decide

/-- Each clause at a boundary: the length registers, both ends of `EIN`, both ends of `TXT`. -/
theorem test_witness_ReadAfterWriteReturnsTheValue : Inv { good with einLen := 0, txtLen := 0 } ∧ good.busy = false ∧
    ∀ a ∈ [0x0006#16, 0x0007#16, 0x0020#16, 0x003F#16, 0x1000#16, 0x10FF#16],
      a = 0x0006#16 ∨ a = 0x0007#16 ∨ (0x0020 ≤ a.toNat ∧ a.toNat < 0x0040) ∨
      (0x1000 ≤ a.toNat ∧ a.toNat < 0x1000 + Params.reference.txtCap) :=
  ⟨test_inv_good 0 0, rfl, by simp [Params.reference]⟩

/-- Both ends of every unmapped range of R41. -/
theorem test_witness_UnmappedAddressesReadZeroAndIgnoreWrites : Params.reference.Wf ∧
    (∀ a ∈ [0x000A, 0x001F, 0x0078, 0x00FF, 0x0400, 0x0FFF, 0x1100, 0xFFFF], UnmappedAddr Params.reference a) ∧
    UnmappedAddr Params.reference 0x0109 ∧ UnmappedAddr Params.reference 0x03FF := by
  refine ⟨by decide, ?_, .inr (.inr (.inr (.inr ⟨0, 8, by decide⟩))), .inr (.inr (.inr (.inr ⟨23, 30, by decide⟩)))⟩
  intro a ha
  have h : (0x000A ≤ a ∧ a ≤ 0x001F) ∨ (0x0078 ≤ a ∧ a ≤ 0x00FF) ∨ (0x0400 ≤ a ∧ a ≤ 0x0FFF) ∨ (0x1100 ≤ a ∧ a ≤ 0xFFFF) := by
    revert a; decide
  rcases h with h | h | h | h
  · exact .inl h
  · exact .inr (.inl h)
  · exact .inr (.inr (.inl h))
  · exact .inr (.inr (.inr (.inl h)))

/-- The ends of each read-only range, the length and the last byte of slot 23 among them. -/
theorem test_witness_ReadOnlyLocationsIgnoreWrites : Params.reference.Wf ∧
    (∀ a ∈ [0x0001#16, 0x0009#16], a.toNat ∈ [0x0001, 0x0002, 0x0003, 0x0004, 0x0005, 0x0008, 0x0009]) ∧
    (∀ a ∈ [0x0040#16, 0x005F#16], 0x0040 ≤ a.toNat ∧ a.toNat < 0x0060) ∧
    (∀ a ∈ [0x0060#16, 0x0077#16], 0x0060 ≤ a.toNat ∧ a.toNat < 0x0078) ∧
    (23 < 24 ∧ 8 ≤ Params.reference.wordMax ∧ (0x03E8#16).toNat = 0x0100 + 32 * 23 + 8) := by
  refine ⟨by decide, ?_⟩
  simp [Params.reference]

theorem test_witness_ReadsFollowTheAddressMap : (idle []).params.Wf ∧ 31 < 32 ∧ 7 < (idle []).params.wordMax ∧
    255 < (idle []).params.txtCap ∧ UnmappedAddr (idle []).params (0x000A#16).toNat :=
  ⟨by decide, by decide, by decide, by decide, .inl (by decide)⟩

/-- A storing form, a start and a form that stores nothing. -/
theorem test_witness_HostTransactionsChangeOnlyWhatTheyName : (idle []).params.Wf ∧
    (∃ t, exec (.wr 0x0020#16 1#32) (idle []) = .next t ∧ t.mem ≠ (idle []).mem) ∧
    (∃ t, exec .encode (idle []) = .next t ∧ t.op = 1) ∧
    (∃ t, exec (.rd 0x0001#16) (idle []) = .next t ∧ t.rdata = 8) :=
  ⟨by decide, ⟨_, rfl, by decide⟩, ⟨_, rfl, by decide⟩, ⟨_, rfl, by decide⟩⟩

theorem test_witness_CommandsAndReadsStoreNothing : (∃ t, exec .nop (idle []) = .next t) ∧
    (∃ t, exec .encode (idle []) = .next t) ∧ (∃ t, exec .decode (idle []) = .next t) ∧
    ∃ t, exec (.rd 0x0001#16) (idle []) = .next t := ⟨⟨_, rfl⟩, ⟨_, rfl⟩, ⟨_, rfl⟩, ⟨_, rfl⟩⟩

/-- Each of the three clauses; the success clause at the smallest and the largest legal length, and an index in each
half of its range. -/
theorem test_witness_EncodeCompletionComputesTheMnemonic :
    (∃ s : State, s.busy = true ∧ s.op = 1 ∧ s.vok = false) ∧
    (∃ s : State, s.busy = true ∧ s.op = 1 ∧ s.vok = true ∧ s.einLen.toNat ∉ [16, 20, 24, 28, 32]) ∧
    (∀ l ∈ [16#16, 32#16], (started 1 l 0).busy = true ∧ (started 1 l 0).op = 1 ∧ (started 1 l 0).vok = true ∧
      (started 1 l 0).einLen.toNat ∈ [16, 20, 24, 28, 32] ∧ Inv (started 1 l 0)) := by
  refine ⟨⟨{ busyWith 1 [] 16 0 [] with vok := false }, rfl, rfl, rfl⟩, ⟨busyWith 1 [] 33 0 [], rfl, rfl, rfl, by decide⟩, ?_⟩
  have h : ∀ l ∈ [16#16, 32#16], l.toNat ∈ [16, 20, 24, 28, 32] := by simp
  exact fun l hl => ⟨rfl, rfl, good_vok, h l hl, test_inv_started 1 (.inl rfl) l 0⟩

theorem test_witness_EncodeCompletionTouchesOnlyItsOutputs :
    let s := busyWith 1 fewWords 16 0 []
    s.busy = true ∧ s.op = 1 ∧ s.params.Wf := by decide

/-- The first group and the last one of the longest entropy. -/
theorem test_witness_GroupsAreTheBitsOfTheConcatenation :
    (List.replicate 32 (0 : Byte)).length ∈ [16, 20, 24, 28, 32] ∧ 0 < wordCount (entropyBits 32) ∧
    23 < wordCount (entropyBits 32) ∧
    let s := busyWith 1 fewWords 32 0 []
    s.busy = true ∧ s.op = 1 ∧ s.vok = true ∧ s.einLen.toNat ∈ [16, 20, 24, 28, 32] ∧ ∃ t, complete s = .next t := by
  refine ⟨by decide, by decide, by decide, rfl, rfl, rfl, by decide, ⟨_, rfl⟩⟩

theorem test_witness_EncodeAccumulatorEqualsThePartition :
    let e := List.replicate 16 (0x7f : Byte)
    e.length ∈ [16, 20, 24, 28, 32] ∧ e.reverse = [] ++ 0x7f :: List.replicate 15 0x7f := by decide

theorem test_witness_DifferentEntropiesGiveDifferentMnemonics :
    let e := List.replicate 16 (0 : Byte)
    let e' := List.replicate 15 (0 : Byte) ++ [1]
    e.length ∈ [16, 20, 24, 28, 32] ∧ e'.length = e.length ∧ e ≠ e' ∧ vocab.length = 2048 ∧ vocab.Nodup :=
  ⟨by decide, by decide, by decide, vocab_length, vocab_nodup⟩

theorem test_witness_TokensAreTheMaximalRuns :
    let text : List Byte := [0x61, 0x20, 0x62]
    (⟨0, 1⟩ : Token) ∈ tokenize wsDefault text ∧ 2 < text.length ∧ text.getD 2 0 ∉ wsDefault := by decide

set_option maxRecDepth 100000 in
/-- Each clause of DECODE: no vocabulary, a text one byte too long, a bad count, an unknown last token, a wrong and a
right checksum. -/
theorem test_witness_DecodeCompletionComputesTheEntropy :
    (∃ s : State, s.busy = true ∧ s.op = 2 ∧ s.vok = false) ∧
    (let s := busyWith 2 fewWords 0 257 []
     s.busy = true ∧ s.op = 2 ∧ s.vok = true ∧ s.params.txtCap < s.txtLen.toNat) ∧
    (let s := busyWith 2 fewWords 0 256 []
     s.busy = true ∧ s.vok = true ∧ s.txtLen.toNat ≤ s.params.txtCap ∧
       (tokenize s.params.ws s.text).length ∉ [12, 15, 18, 21, 24]) ∧
    (let s := busyWith 2 fewWords 0 90 (phrase [0x7A, 0x7A])
     let toks := tokenize s.params.ws s.text
     s.busy = true ∧ s.vok = true ∧ s.txtLen.toNat ≤ s.params.txtCap ∧ toks.length ∈ [12, 15, 18, 21, 24] ∧
       toks[11]? = some ⟨88, 2⟩ ∧ indexOf s.vf (Token.bytes s.text ⟨88, 2⟩) = none ∧
       ∀ u ∈ toks.take 11, indexOf s.vf (u.bytes s.text) ≠ none) ∧
    (∀ x ∈ [([0x77, 0x32], 90#16, 2), (([0x61, 0x62, 0x6F, 0x75, 0x74] : VWord), 93#16, 3)],
      let s := busyWith 2 fewWords 0 x.2.1 (phrase x.1)
      let idx := List.replicate 11 0 ++ [x.2.2]
      s.vok = true ∧ s.txtLen.toNat ≤ s.params.txtCap ∧ s.mem.wf = true ∧
        (tokenize s.params.ws s.text).length ∈ [12, 15, 18, 21, 24] ∧
        (tokenize s.params.ws s.text).map (fun tok => indexOf s.vf (tok.bytes s.text)) = idx.map some ∧
        (checksum (reassemble idx) = embeddedChecksum idx ↔ x.2.2 = 3)) :=
  ⟨⟨{ busyWith 2 [] 16 0 [] with vok := false }, rfl, rfl, rfl⟩, by decide, by decide, by decide, by decide⟩

theorem test_witness_DecodeCompletionTouchesOnlyItsOutputs :
    (busyWith 2 fewWords 0 0 []).busy = true ∧ (busyWith 2 fewWords 0 0 []).op = 2 := by decide

theorem test_witness_ReassemblyInvertsThePartition :
    (List.replicate 23 0 ++ [102]).length ∈ [12, 15, 18, 21, 24] ∧ (∀ i ∈ List.replicate 23 0 ++ [102], i < 2048) ∧
    (List.replicate 32 (0 : Byte)).length ∈ [16, 20, 24, 28, 32] := by decide

theorem test_witness_DecodeAccumulatorEqualsTheReassembly :
    let idx := List.replicate 23 2047 ++ [1967]
    idx.length ∈ [12, 15, 18, 21, 24] ∧ (∀ i ∈ idx, i < 2048) ∧ idx = List.replicate 23 2047 ++ 1967 :: [] := by decide

set_option maxRecDepth 100000 in
/-- V-E1's indices, the last one changed from 3 to 2. -/
theorem test_witness_CorruptedChecksumBitsFail :
    let idx := List.replicate 11 0
    (∀ i ∈ idx, i < 2048) ∧ 3 < 2048 ∧ 2 < 2048 ∧ (idx ++ [3]).length ∈ [12, 15, 18, 21, 24] ∧
      3 / 2 ^ ((idx.length + 1) * 11 / 32) = 2 / 2 ^ ((idx.length + 1) * 11 / 32) ∧ 3 ≠ 2 ∧
      verifyIndices (idx ++ [3]) = .ok (List.replicate 16 0) := by decide

/-- The mnemonic of sixteen zero bytes in `vocab`: entry 0 eleven times and entry 3, single spaces between. -/
def zerosText : List Byte := (List.replicate 11 ([0x41, 0x41, 0x20] : List Byte)).flatten ++ [0x41, 0x44]

/-- `started` with `zerosText` in `TXT`. -/
def startedOnText : State := { started 2 0 35 with mem := Memory.writeBytes [] txtBase zerosText }

theorem test_inv_startedOnText : Inv startedOnText := by
  have h : ∀ x, x < 0x1000 → startedOnText.mem.read x = 0 := fun x hx =>
    Memory.read_writeBytes_of_outside _ _ _ (.inl hx)
  have hm : ∀ c ∈ startedOnText.mem, ∃ k, k < 35 ∧ c.1 = txtBase + k := by decide
  exact { test_inv_started 2 (.inr rfl) 0 35 with
    mem_wf := by decide
    mem_mapped := fun c hc => by
      obtain ⟨k, hk, e⟩ := hm c hc
      rw [e]
      have hb : ∀ k, k < 35 → (locate Params.reference (BitVec.ofNat 16 (0x1000 + k))).byteAddr = some (txtBase + k) := by
        decide
      exact ⟨_, hb k hk⟩
    mwB_tail := fun i j _ hj => h _ (by
      have hj' : j < 8 := hj
      unfold slotBase slotWindow; omega)
    eout_tail := fun i _ hi => h _ (by unfold eoutBase; omega)
    slots_spell := fun i hi => absurd hi (Nat.not_lt_zero _) }

set_option maxRecDepth 100000 in
theorem test_witness_DecodeOfEncodeIsTheEntropy :
    Inv (started 1 16 0) ∧ Inv startedOnText ∧ (started 1 16 0).busy = true ∧ (started 1 16 0).op = 1 ∧
    startedOnText.busy = true ∧ startedOnText.op = 2 ∧ (started 1 16 0).vok = true ∧ startedOnText.vok = true ∧
    startedOnText.vf = (started 1 16 0).vf ∧ (started 1 16 0).vf.Nodup ∧
    (∀ w ∈ (started 1 16 0).vf, w ≠ [] ∧ ∀ b ∈ w, b ∉ startedOnText.params.ws) ∧
    (started 1 16 0).einLen.toNat ∈ [16, 20, 24, 28, 32] ∧
    ∃ s', complete (started 1 16 0) = .next s' ∧
      let seps := List.replicate 11 ([0x20] : List Byte) ++ [[]]
      seps.length = s'.mcount.toNat ∧ Separators startedOnText.params.ws seps ∧
      startedOnText.txtLen.toNat ≤ startedOnText.params.txtCap ∧
      startedOnText.text = spacedText [] ((((List.finRange 24).take s'.mcount.toNat).map s'.slotWord).zip seps) := by
  refine ⟨test_inv_started 1 (.inl rfl) 16 0, test_inv_startedOnText, rfl, rfl, rfl, rfl, good_vok, good_vok, rfl, ?_, ?_,
    by decide, _, rfl, by decide +kernel, ?_, by decide, by decide +kernel⟩
  · show good.vf.Nodup
    rw [good_vf]; exact vocab_nodup
  · show ∀ w ∈ good.vf, _
    rw [good_vf]; exact vocab_clean
  · have hb : ∀ b ∈ ([0x20] : List Byte), b ∈ Params.reference.ws := by decide
    have hn : ([0x20] : List Byte) ≠ [] := by decide
    exact ⟨hn, hb, hn, hb, hn, hb, hn, hb, hn, hb, hn, hb, hn, hb, hn, hb, hn, hb, hn, hb, hn, hb,
      fun _ h => absurd h List.not_mem_nil⟩

theorem test_witness_FailureStepClearsAndReports : (busyWith 1 [] 0 0 []).op = 1 ∧ (busyWith 2 [] 0 0 []).op = 2 := by
  decide

theorem test_witness_EveryOutcomeHasItsCondition :
    (∃ t, (busyWith 1 [] 16 0 []).busy = true ∧ complete (busyWith 1 [] 16 0 []) = .next t) ∧
    ∃ t, (busyWith 2 [] 0 0 []).busy = true ∧ complete (busyWith 2 [] 0 0 []) = .next t := ⟨⟨_, rfl, rfl⟩, ⟨_, rfl, rfl⟩⟩

theorem test_witness_VinitChecksTheCount : vocab.length = 2048 ∧ (vocab.drop 1).length ≠ 2048 := by
  simp [vocab_length]

theorem test_witness_ReverseLookUpTakesTheLastOccurrence : vocab.length = 2048 ∧ Params.reference.Fits vocab ∧
    Params.reference.wordMax < (List.replicate 9 (0x61 : Byte)).length := ⟨vocab_length, vocab_fits, by decide⟩

/-- The two ends of the table holding one word. -/
theorem test_witness_DuplicateEntriesLoseTheSmallerIndex :
    let vf : List VWord := List.replicate 2048 [0x61]
    vf.length = 2048 ∧ 0 < 2047 ∧ 2047 < 2048 ∧ wordOf vf 0 = wordOf vf 2047 := by
  refine ⟨List.length_replicate, by decide, by decide, ?_⟩
  simp only [wordOf, List.getD_eq_getElem?_getD, List.getElem?_replicate]
  rfl

theorem test_witness_DegenerateEntriesAreNeverDecoded :
    (⟨0, 1⟩ : Token) ∈ tokenize wsDefault [0x61] ∧ indexOf [[], [0x61]] (Token.bytes [0x61] ⟨0, 1⟩) = some 1 := by decide

theorem test_witness_VocabularyIsImmutableBetweenResets :
    (∃ t, step (started 1 16 0) = .next t) ∧ ¬ NextIsReset (started 1 16 0) := by
  refine ⟨⟨_, rfl⟩, ?_⟩
  rintro ⟨src, rest, h⟩
  cases h

theorem test_witness_ResetStepGivesTheResetValues :
    let s := withEvent (started 1 16 0) (.reset vocab)
    s.ConfigWf ∧ s.params.Fits vocab ∧ s.pending = .reset vocab :: [] ∧ vocab.length = 2048 :=
  ⟨⟨by show Params.reference.Wf; decide, rfl⟩, vocab_fits, rfl, vocab_length⟩

theorem test_witness_ResetAbandonsTheOperation :
    let s := { started 1 16 0 with pending := [.reset vocab, .engine] }
    s.ConfigWf ∧ s.params.Fits vocab ∧ s.busy = true ∧ s.pending = .reset vocab :: .engine :: [] :=
  ⟨⟨by show Params.reference.Wf; decide, rfl⟩, vocab_fits, rfl, rfl⟩

theorem test_witness_ResetStatesSatisfyTheInvariant : Config.Wf { params := Params.reference, vocabSrc := vocab } :=
  ⟨by decide, vocab_fits⟩

theorem test_witness_StepKeepsTheInvariant : Inv (started 1 16 0) ∧ ∃ t, step (started 1 16 0) = .next t :=
  ⟨test_inv_started 1 (.inl rfl) 16 0, _, rfl⟩

theorem test_witness_ReachableStatesMeetR30 :
    ∃ t, Reachable { params := Params.reference, vocabSrc := vocab } t ∧ t.busy = true := by
  have hc : Config.Wf { params := Params.reference, vocabSrc := vocab } := ⟨by decide, vocab_fits⟩
  refine ⟨start 1 { State.resetOf { params := Params.reference, vocabSrc := vocab } with pending := [.engine] },
    .step (.reset hc [.host (encode .encode).asRecord, .engine]) ?_, ?_⟩
  · exact step_of_wf (s := { State.resetOf _ with pending := _ }) ⟨hc.1, resetOf_srcFits hc.2⟩
  · rfl

/-- A state for each of the three outcomes. -/
theorem test_witness_InvariantStatesNeverGetStuck : Inv (started 2 0 0) ∧
    (Inv (withEvent (started 2 0 0) (.host 1#49)) ∧ decode (.host 1#49) = .error .readDataNotZero) ∧
    ¬ (started 2 0 0).params.Fits [List.replicate 9 0x61] :=
  ⟨test_inv_started 2 (.inr rfl) 0 0, ⟨{ test_inv_started 2 (.inr rfl) 0 0 with }, by decide⟩,
    by show ¬ Params.reference.Fits _; decide⟩

theorem test_witness_EngineNeverWritesAnInput :
    (∃ t, step (started 1 16 0) = .next t) ∧ ¬ NextIsHost (started 1 16 0) ∧ ¬ NextIsReset (started 1 16 0) := by
  refine ⟨⟨_, rfl⟩, ?_, ?_⟩
  · rintro ⟨t, rest, h⟩; cases h
  · rintro ⟨src, rest, h⟩; cases h

theorem test_witness_OnlyCompletionOrResetEndsAnOperation :
    ∃ t, step (busyWith 1 [] 5 0 []) = .next t ∧ (busyWith 1 [] 5 0 []).busy = true ∧ t.busy = false ∧
      (busyWith 1 [] 5 0 []).done = false ∧ t.done = true := ⟨_, rfl, by decide⟩

theorem test_witness_CompletionEndsTheOperation : (idle []).busy = false ∧ (busyWith 1 [] 5 0 []).busy = true ∧
    (busyWith 1 [] 5 0 []).op = 1 ∧ (busyWith 2 [] 5 0 []).op = 2 ∧ ∃ t, complete (busyWith 2 [] 5 0 []) = .next t :=
  ⟨rfl, rfl, rfl, rfl, _, rfl⟩

/-- Two transactions still to come. -/
theorem test_witness_EnabledCompletionIsTaken :
    let is : List Instr := [.rd 0x0001#16, .wr 0x0020#16 1#32]
    let s := { started 1 16 0 with pending := is.map fun i => Event.host (encode i).asRecord }
    Inv s ∧ s.busy = true ∧ s.pending = is.map fun i => Event.host (encode i).asRecord :=
  ⟨{ test_inv_started 1 (.inl rfl) 16 0 with }, rfl, rfl⟩

theorem test_witness_CommandThenEngineTurnCompletes :
    let s := { idle [] with pending := [.host (encode .encode).asRecord, .engine] }
    let u := { idle [] with pending := [.host (encode .decode).asRecord, .engine] }
    s.ConfigWf ∧ s.busy = false ∧ s.pending = .host (encode .encode).asRecord :: .engine :: [] ∧
      u.ConfigWf ∧ u.busy = false ∧ u.pending = .host (encode .decode).asRecord :: .engine :: [] := by decide

/-- Two states that differ in `TXT_LEN` and in the flags of an earlier operation's report. -/
theorem test_witness_EncodeIsAFunctionOfItsInputs :
    Inv (started 1 16 0) ∧ Inv (started 1 16 9) ∧ (started 1 16 0).busy = true ∧ (started 1 16 9).busy = true ∧
    (started 1 16 0).op = 1 ∧ (started 1 16 9).op = 1 ∧ SameVocabulary (started 1 16 0) (started 1 16 9) ∧
    (started 1 16 9).einLen = (started 1 16 0).einLen ∧
    ∀ i, i < 16 → i < 32 → (started 1 16 9).mem.read (einBase + i) = (started 1 16 0).mem.read (einBase + i) :=
  ⟨test_inv_started 1 (.inl rfl) 16 0, test_inv_started 1 (.inl rfl) 16 9, rfl, rfl, rfl, rfl, ⟨rfl, rfl, rfl, rfl⟩, rfl,
    fun _ _ _ => rfl⟩

/-- Two states that differ in `EIN_LEN`. -/
theorem test_witness_DecodeIsAFunctionOfItsInputs :
    Inv (started 2 16 9) ∧ Inv (started 2 20 9) ∧ (started 2 16 9).busy = true ∧ (started 2 20 9).busy = true ∧
    (started 2 16 9).op = 2 ∧ (started 2 20 9).op = 2 ∧ SameVocabulary (started 2 16 9) (started 2 20 9) ∧
    (started 2 20 9).txtLen = (started 2 16 9).txtLen ∧
    ∀ k, k < 9 → k < (started 2 16 9).params.txtCap →
      (started 2 20 9).mem.read (txtBase + k) = (started 2 16 9).mem.read (txtBase + k) :=
  ⟨test_inv_started 2 (.inr rfl) 16 9, test_inv_started 2 (.inr rfl) 20 9, rfl, rfl, rfl, rfl, ⟨rfl, rfl, rfl, rfl⟩, rfl,
    fun _ _ _ => rfl⟩

theorem test_witness_StatusReadsItsFlags : Inv (started 1 16 0) := test_inv_started 1 (.inl rfl) 16 0

/-- The empty message, the longest one, and a zero byte of the padding in each. -/
theorem test_witness_PaddedMessageIsOneBlock : ([] : List Byte).length ≤ 55 ∧ ([] : List Byte).length < 55 ∧
    (List.replicate 55 (0 : Byte)).length ≤ 55 ∧ (List.replicate 32 (0 : Byte)).length < 33 ∧ 15 < 16 := by decide

theorem test_witness_ScheduleFollowsTheRecurrence : 16 ≤ 16 ∧ 16 < 64 ∧ 16 ≤ 63 ∧ 63 < 64 := by decide

theorem test_witness_ChecksumIsTheTopOfTheDigest : (List.replicate 32 (0 : Byte)).length ∈ [16, 20, 24, 28, 32] := by
  decide

/-- Each bound broken by one, and a word one byte too long, presented and recorded. -/
theorem test_witness_IllFormedConfigurationsAreRefused :
    (∀ p ∈ [params 0 256, params 32 4096, params 8 214, params 8 4097],
      ¬ (1 ≤ p.wordMax ∧ p.wordMax ≤ 31 ∧ 24 * p.wordMax + 23 ≤ p.txtCap ∧ p.txtCap ≤ 4096 ∧ (0x20 : Byte) ∈ p.ws)) ∧
    (withEvent (idle []) (.reset [List.replicate 9 0x61])).pending = .reset [List.replicate 9 0x61] :: [] ∧
    Params.reference.wordMax < (List.replicate 9 (0x61 : Byte)).length ∧
    ({ idle [] with srcFits := false } : State).srcFits = false := by decide

theorem test_witness_MalformedRecordsAreRefused :
    let s := withEvent (idle []) (.host (record 0#1 0x0001#16 1#32))
    s.ConfigWf ∧ (1#32 : Word32) ≠ 0#32 ∧ s.pending = .host (record 0#1 0x0001#16 1#32) :: [] := by decide

end Sys2Proof.Tests
end

/-! PROOFS of family 00_scope: R8, the completion of an operation is a function of its inputs. Each operation in two
parts: its outcome depends on the listed inputs only, and equal outcomes are recorded alike. -/

namespace Sys2Proof.Machine

/-! What a report shows, whatever the operation. -/

/-- `STATUS` shows its four flags and nothing else (R65). -/
theorem statusWord_congr {s t : State} (hvok : t.vok = s.vok) (herrf : t.errf = s.errf) (hdone : t.done = s.done)
    (hbusy : t.busy = s.busy) : t.statusWord = s.statusWord := by
  rw [State.statusWord, hvok, herrf, hdone, hbusy, State.statusWord]

/-- One failure is reported alike in any two states (R152). -/
theorem raise_sameReport (f : Failure) (s t : State) : SameReport (raise f s) (raise f t) := ⟨rfl, rfl, rfl, rfl, rfl⟩

/-- After a failure `STATUS` depends on `VOK` only (R152). -/
theorem raise_statusWord_congr (f : Failure) {s t : State} (hvok : t.vok = s.vok) :
    (raise f t).statusWord = (raise f s).statusWord :=
  statusWord_congr (by simpa using hvok) rfl rfl rfl

/-- A success is reported alike in any two states (R111, R125). -/
theorem reportSuccess_sameReport (s t : State) : SameReport (reportSuccess s) (reportSuccess t) :=
  ⟨rfl, rfl, rfl, rfl, rfl⟩

/-- After a success `STATUS` depends on `VOK` only (R111, R125). -/
theorem reportSuccess_statusWord_congr {s t : State} (hvok : t.vok = s.vok) :
    (reportSuccess t).statusWord = (reportSuccess s).statusWord :=
  statusWord_congr hvok rfl rfl rfl

/-! ENCODE. -/

/-- The entropy offered to ENCODE is `EIN[0..EIN_LEN)` and nothing else. -/
theorem entropyIn_congr {s t : State} (hlen : t.einLen = s.einLen)
    (hein : ∀ i, i < s.einLen.toNat → t.mem.read (einBase + i) = s.mem.read (einBase + i)) :
    t.entropyIn = s.entropyIn := by
  rw [State.entropyIn, hlen]
  exact Memory.readBytes_congr hein

/-- What ENCODE computes depends on `VOK`, `EIN_LEN` and `EIN[0..EIN_LEN)` only: the entropy is read only when its
length is legal, so never beyond the buffer (R111). -/
theorem encodeOutcome_congr {s t : State} (hvok : t.vok = s.vok) (hlen : t.einLen = s.einLen)
    (hein : ∀ i, i < s.einLen.toNat → i < 32 → t.mem.read (einBase + i) = s.mem.read (einBase + i)) :
    encodeOutcome t = encodeOutcome s := by
  unfold encodeOutcome
  rw [hvok, hlen]
  by_cases hlegal : s.einLen.toNat ∈ entLens
  · have hle : s.einLen.toNat ≤ 32 := by rw [mem_entLens] at hlegal; omega
    rw [entropyIn_congr hlen fun i hi => hein i hi (by omega)]
  · simp only [hlegal, not_false_eq_true, if_true]

/-- A mnemonic that ENCODE computes has a slot for each of its words (R19). -/
theorem encodeOutcome_ok_length_le {s : State} {g : List Nat} (h : encodeOutcome s = .ok g) : g.length ≤ 24 := by
  unfold encodeOutcome at h
  split at h
  · cases h
  · split at h
    · cases h
    · rename_i hlegal
      cases h
      rw [entropyGroups_length, entropyIn_length]
      exact wordCount_le (not_not.1 hlegal)

/-- A failure of ENCODE leaves the same empty mnemonic in any two states (R152). -/
theorem raise_sameMnemonic (f : Failure) {s t : State} (hs : s.op = 1) (ht : t.op = 1) (hw : s.params.wordMax ≤ 31) :
    SameMnemonic (raise f s) (raise f t) := by
  rw [raise_encode f hs, raise_encode f ht]
  refine ⟨rfl, rfl, rfl, fun i j hi hj => ?_⟩
  have hj31 : j < 31 := lt_of_lt_of_le hj hw
  exact (read_clear_slots t.mem hi hj31).trans (read_clear_slots s.mem hi hj31).symm

/-- Under one vocabulary the same groups are stored as the same mnemonic, whatever the slots held before (R111). -/
theorem storeMnemonic_sameMnemonic {s t : State} (hs : s.mem.wf = true) (ht : t.mem.wf = true) (hvf : t.vf = s.vf)
    (hp : t.params = s.params) (hw : s.params.wordMax ≤ 31) {g : List Nat} (hg : g.length ≤ 24) :
    SameMnemonic (storeMnemonic g s) (storeMnemonic g t) := by
  have hwt : t.params.wordMax ≤ 31 := hp ▸ hw
  refine ⟨rfl, rfl, by simp only [storeMnemonic_mwLen, hvf], fun i j hi hj => ?_⟩
  have hjt : j < t.params.wordMax := hp ▸ hj
  rcases Nat.lt_or_ge i g.length with hig | hig
  · rw [storeMnemonic_slot ht hwt hg hig hjt, storeMnemonic_slot hs hw hg hig hj, hvf]
  · rw [storeMnemonic_slot_beyond hwt hig hi hjt, storeMnemonic_slot_beyond hw hig hi hj]

/-- Settles O47: ENCODE computes the same outcome in the two states, and each outcome is recorded alike. -/
theorem encodeIsAFunctionOfItsInputs : Obligations.EncodeIsAFunctionOfItsInputs := by
  unfold Obligations.EncodeIsAFunctionOfItsInputs
  rintro s t hs ht - - hops hopt ⟨hvok, hvf, hp, -⟩ hlen hein
  have hw : s.params.wordMax ≤ 31 := hs.params_wf.2.1
  refine ⟨_, _, complete_encode hops, complete_encode hopt, ?_⟩
  unfold encodeComplete
  rw [encodeOutcome_congr hvok hlen hein]
  cases hout : encodeOutcome s with
  | error f => exact ⟨raise_sameMnemonic f hops hopt hw, raise_sameReport f s t, raise_statusWord_congr f hvok⟩
  | ok g =>
    exact ⟨storeMnemonic_sameMnemonic hs.mem_wf ht.mem_wf hvf hp hw (encodeOutcome_ok_length_le hout),
      reportSuccess_sameReport _ _, reportSuccess_statusWord_congr hvok⟩

/-! DECODE. -/

/-- The text offered to DECODE is `TXT[0..TXT_LEN)` and nothing else. -/
theorem text_congr {s t : State} (hlen : t.txtLen = s.txtLen)
    (htxt : ∀ k, k < s.txtLen.toNat → t.mem.read (txtBase + k) = s.mem.read (txtBase + k)) : t.text = s.text := by
  rw [State.text, hlen]
  exact Memory.readBytes_congr htxt

/-- What DECODE computes depends on the vocabulary, `TXT_LEN` and `TXT[0..TXT_LEN)` only: the text is read only when
its length is at most `TXT_CAP`, so never beyond the buffer (R125). -/
theorem decodeOutcome_congr {s t : State} (hv : SameVocabulary s t) (hlen : t.txtLen = s.txtLen)
    (htxt : ∀ k, k < s.txtLen.toNat → k < s.params.txtCap → t.mem.read (txtBase + k) = s.mem.read (txtBase + k)) :
    decodeOutcome t = decodeOutcome s := by
  obtain ⟨hvok, hvf, hp, -⟩ := hv
  unfold decodeOutcome
  rw [hvok, hvf, hp, hlen]
  by_cases hlong : s.params.txtCap < s.txtLen.toNat
  · simp only [hlong, if_true]
  · rw [text_congr hlen fun k hk => htxt k hk (by omega)]

/-- A failure of DECODE leaves the same empty entropy in any two states (R152). -/
theorem raise_sameEntropy (f : Failure) {s t : State} (hs : s.op = 2) (ht : t.op = 2) :
    SameEntropy (raise f s) (raise f t) := by
  rw [raise_decode f hs, raise_decode f ht]
  refine ⟨rfl, fun i hi => ?_⟩
  have hin : eoutBase ≤ eoutBase + i ∧ eoutBase + i < eoutBase + entCap := by unfold entCap; omega
  simp only [reportFailure_mem, clearEntropy_mem, Memory.read_clear, if_pos hin]

/-- The same entropy is stored alike, whatever `EOUT` held before (R125). -/
theorem storeEntropy_sameEntropy {s t : State} (hs : s.mem.wf = true) (ht : t.mem.wf = true) (e : List Byte) :
    SameEntropy (storeEntropy e s) (storeEntropy e t) := by
  refine ⟨rfl, fun i hi => ?_⟩
  rcases Nat.lt_or_ge i e.length with hie | hie
  · rw [storeEntropy_in ht hie, storeEntropy_in hs hie]
  · rw [storeEntropy_beyond hie hi, storeEntropy_beyond hie hi]

/-- Settles O48: DECODE computes the same outcome in the two states, and each outcome is recorded alike. -/
theorem decodeIsAFunctionOfItsInputs : Obligations.DecodeIsAFunctionOfItsInputs := by
  unfold Obligations.DecodeIsAFunctionOfItsInputs
  rintro s t hs ht - - hops hopt hv hlen htxt
  have hvok : t.vok = s.vok := hv.1
  refine ⟨_, _, complete_decode hops, complete_decode hopt, ?_⟩
  unfold decodeComplete
  rw [decodeOutcome_congr hv hlen htxt]
  cases decodeOutcome s with
  | error f => exact ⟨raise_sameEntropy f hops hopt, raise_sameReport f s t, raise_statusWord_congr f hvok⟩
  | ok e =>
    exact ⟨storeEntropy_sameEntropy hs.mem_wf ht.mem_wf e, reportSuccess_sameReport _ _,
      reportSuccess_statusWord_congr hvok⟩

end Sys2Proof.Machine

/-! PROOFS of family 10_state: R31, the values a reset gives, and R30 in every reachable state. The second in three
parts: the reset state satisfies the invariant, every effect a step can have keeps it, and the invariant says R30. -/

namespace Sys2Proof.Machine

/-! The reset. -/

/-- Settles O36: the reset step answers the reset state of the presented list, and that state is the table of R31. -/
theorem resetStepGivesTheResetValues : Obligations.ResetStepGivesTheResetValues := by
  unfold Obligations.ResetStepGivesTheResetValues
  intro s src rest hw hf hp
  refine ⟨_, step_reset hw hf hp, rfl, rfl, decide_eq_true_iff, decide_eq_true_iff, rfl, rfl, rfl, rfl, rfl, rfl, rfl, rfl,
    fun i => ⟨replicate_get 0 i, replicate_get 0 i⟩, Memory.read_nil, rfl, fun hlen => ?_⟩
  exact if_pos hlen

/-- The reset state of a well-formed configuration satisfies the invariant, whatever the count of its word list. -/
theorem inv_resetOf {c : Config} (hc : c.Wf) : Inv (State.resetOf c) where
  params_wf := hc.1
  src_fits := resetOf_srcFits hc.2
  mem_wf := rfl
  mem_mapped := fun _ h => absurd h List.not_mem_nil
  vocab_size := fun hvok => by
    have hlen : c.vocabSrc.length = 2048 := of_decide_eq_true hvok
    simp [State.resetOf, hlen]
  vocab_fits := fun hvok => by
    have hlen : c.vocabSrc.length = 2048 := of_decide_eq_true hvok
    simpa [State.resetOf, hlen] using hc.2
  busy_iff_op := by simp [State.resetOf]
  idle_op := fun _ => rfl
  not_busy_done := by simp [State.resetOf]
  errf_iff := by by_cases hlen : c.vocabSrc.length = 2048 <;> simp [State.resetOf, hlen]
  no_vocab_err := fun hvok => by
    have hlen : c.vocabSrc.length ≠ 2048 := of_decide_eq_false hvok
    simp [State.resetOf, hlen]
  mcount_legal := .inl rfl
  eoutLen_legal := .inl rfl
  midx_tail := fun i _ => replicate_get _ i
  mwLen_tail := fun i _ => replicate_get _ i
  mwB_tail := fun _ _ _ _ => rfl
  mwLen_le := fun i => by simp [State.resetOf]
  eout_tail := fun _ _ _ => rfl
  mcount_vok := fun h => absurd rfl h
  slots_spell := fun i hi => absurd hi (Nat.not_lt_zero _)
  err_ref := fun _ => ⟨rfl, rfl⟩
  err_info := fun _ _ _ => rfl
  err_code := by by_cases hlen : c.vocabSrc.length = 2048 <;> simp [State.resetOf, hlen]
  errf_seen := fun hvok herrf => absurd (of_decide_eq_true hvok) (of_decide_eq_true herrf)

/-- The host's side of the port, what it last read and the schedule, is not in the invariant and may be anything. -/
theorem inv_port {s : State} (h : Inv s) (v : Word32) (events : List Event) :
    Inv { s with rdata := v, pending := events } :=
  { h with }

/-- A reset step with a fitting list keeps the invariant (R170). -/
theorem inv_resetStep {s : State} (h : Inv s) {src : List VWord} (hf : s.params.Fits src) : Inv (resetStep src s) := by
  rw [resetStep_eq]
  exact inv_port (inv_resetOf (c := { params := s.params, vocabSrc := src }) ⟨h.params_wf, hf⟩) _ _

/-! The host. -/

/-- Every effect of a host transaction keeps the invariant. -/
theorem HostEffect.inv {s t : State} (e : HostEffect s t) (h : Inv s) : Inv t := by
  cases e with
  | none => exact h
  | started c _ hc => exact inv_start h c hc
  | einLen v _ => exact { h with }
  | txtLen v _ => exact { h with }
  | byte a b _ ha => exact inv_byte h a b ha
  | read v => exact inv_port h v _

/-! The engine: a failure keeps the invariant by `inv_raise`, a success in two parts, its outputs and its report. -/

/-- The report of a success keeps the invariant, with a vocabulary (R111, R125). -/
theorem inv_reportSuccess {s : State} (h : Inv s) (hvok : s.vok = true) : Inv (reportSuccess s) :=
  { h with
    busy_iff_op := by simp
    idle_op := fun _ => rfl
    not_busy_done := by simp
    errf_iff := by simp
    no_vocab_err := fun e => by rw [reportSuccess_vok, hvok] at e; cases e
    err_ref := fun _ => ⟨rfl, rfl⟩
    err_info := fun _ _ _ => rfl
    err_code := by simp
    errf_seen := fun _ e => by cases e }

/-- A byte of `EOUT` is a byte location (R41). -/
theorem isByteAddr_eout {p : Params} {k : Nat} (hk : k < 32) : IsByteAddr p (eoutBase + k) := by
  have hx : eoutBase + k < 65536 := by unfold eoutBase; omega
  refine ⟨BitVec.ofNat 16 (eoutBase + k), byteAddr_locate_iff.2 ⟨(ofNat16_toNat hx).symm, .inl ?_⟩⟩
  unfold eoutBase; omega

/-- A byte of a word slot is a byte location (R41). -/
theorem isByteAddr_slot {p : Params} (hw : p.wordMax ≤ 31) {i j : Nat} (hi : i < 24) (hj : j < p.wordMax) :
    IsByteAddr p (slotBase i + 1 + j) := by
  have hx : slotBase i + 1 + j < 65536 := by unfold slotBase slotWindow; omega
  exact ⟨BitVec.ofNat 16 (slotBase i + 1 + j),
    byteAddr_locate_iff.2 ⟨(ofNat16_toNat hx).symm, .inr (.inl ⟨i, j, hi, hj, by omega, rfl⟩)⟩⟩

/-- A byte string whose bytes stand at consecutive addresses is what is read there. -/
theorem readBytes_eq_of_getD {m : Memory} {base : Nat} {bs : List Byte}
    (h : ∀ k, k < bs.length → m.read (base + k) = bs.getD k 0) : m.readBytes base bs.length = bs := by
  refine List.ext_getElem (Memory.readBytes_length ..) fun k _ hk => ?_
  simp [Memory.readBytes, h k hk, hk]

/-- `MCOUNT` of a success (R111). -/
theorem storeMnemonic_mcount_toNat {s : State} {g : List Nat} (hg : g.length ≤ 24) :
    (storeMnemonic g s).mcount.toNat = g.length := by
  rw [storeMnemonic_mcount, BitVec.toNat_ofNat]
  exact Nat.mod_eq_of_lt (by omega)

/-- `MIDX` beyond the mnemonic is 0 after a success (R111). -/
theorem storeMnemonic_midx_beyond {s : State} {g : List Nat} {i : Fin 24} (hi : g.length ≤ i) :
    (storeMnemonic g s).midx.get i = 0 := by
  rw [storeMnemonic_midx, midxOf_get, List.getD_eq_default _ _ hi]
  rfl

/-- `MW_LEN` beyond the mnemonic is 0 after a success (R111). -/
theorem storeMnemonic_mwLen_beyond {s : State} {g : List Nat} {i : Fin 24} (hi : g.length ≤ i) :
    (storeMnemonic g s).mwLen.get i = 0 := by
  rw [storeMnemonic_mwLen, mwLenOf_get, List.getD_eq_default _ _ (by simpa using hi)]
  rfl

/-- Every byte ENCODE lists in memory is a byte location, when every byte listed before was one. -/
theorem storeMnemonic_mapped {s : State} (h : Inv s) {g : List Nat} (hg : g.length ≤ 24) :
    ∀ c ∈ (storeMnemonic g s).mem, IsByteAddr s.params c.1 := by
  intro c hc
  rcases mem_writeSlots hc with hc | ⟨i, j, hi, hj, e⟩
  · exact h.mem_mapped c (Memory.mem_clear hc)
  · rw [List.length_map] at hi
    rw [e]
    exact isByteAddr_slot h.params_wf.2.1 (by omega) hj

/-- After a success of ENCODE a slot of the mnemonic holds the word of its index, byte for byte (R23, R111). -/
theorem storeMnemonic_slotWord {s : State} (hm : s.mem.wf = true) (hw : s.params.wordMax ≤ 31)
    (hf : s.params.Fits s.vf) {g : List Nat} (hg : g.length ≤ 24) {i : Fin 24} (hi : i < g.length) :
    (storeMnemonic g s).slotWord i = wordOf s.vf (g.getD i 0) := by
  have hle := wordOf_length_le hf
  rw [State.slotWord, storeMnemonic_mwLen_toNat (fun v => (hle v).trans hw) hi]
  exact readBytes_eq_of_getD fun k hk => storeMnemonic_slot hm hw hg hi (hk.trans_le (hle _))

/-- The outputs of a success of ENCODE keep the invariant: a legal count, indices of the vocabulary and their words,
and 0 beyond them (R111). -/
theorem inv_storeMnemonic {s : State} (h : Inv s) (hvok : s.vok = true) {g : List Nat} (hlen : g.length ∈ wordCounts)
    (hlt : ∀ x ∈ g, x < 2048) : Inv (storeMnemonic g s) := by
  have hw : s.params.wordMax ≤ 31 := h.params_wf.2.1
  have hf : s.params.Fits s.vf := h.vocab_fits hvok
  have hg : g.length ≤ 24 := by rw [mem_wordCounts] at hlen; omega
  have hcount := storeMnemonic_mcount_toNat (s := s) hg
  have hwords : ∀ v, (wordOf s.vf v).length ≤ s.params.wordMax := wordOf_length_le hf
  have hmwLen {i : Fin 24} (hi : i < g.length) :
      ((storeMnemonic g s).mwLen.get i).toNat = (wordOf s.vf (g.getD i 0)).length :=
    storeMnemonic_mwLen_toNat (fun v => (hwords v).trans hw) hi
  exact { h with
    mem_wf := wf_writeSlots (Memory.wf_clear h.mem_wf _ _) _ _ _
    mem_mapped := storeMnemonic_mapped h hg
    mcount_legal := .inr (hcount ▸ hlen)
    midx_tail := fun i hi => storeMnemonic_midx_beyond (hcount ▸ hi)
    mwLen_tail := fun i hi => storeMnemonic_mwLen_beyond (hcount ▸ hi)
    mwB_tail := fun i j hj hjw => by
      rcases Nat.lt_or_ge i g.length with hi | hi
      · rw [hmwLen hi] at hj
        rw [storeMnemonic_slot h.mem_wf hw hg hi hjw, List.getD_eq_default _ _ hj]
      · exact storeMnemonic_slot_beyond hw hi i.isLt hjw
    mwLen_le := fun i => by
      rcases Nat.lt_or_ge i g.length with hi | hi
      · rw [hmwLen hi]; exact hwords _
      · rw [storeMnemonic_mwLen_beyond hi]; exact Nat.zero_le _
    eout_tail := fun i hi h32 => by
      rw [storeMnemonic_outside hw hg (by unfold eoutBase; omega)]
      exact h.eout_tail i hi h32
    mcount_vok := fun _ => hvok
    slots_spell := fun i hi => by
      rw [hcount] at hi
      rw [storeMnemonic_midx_toNat hlt hi]
      exact storeMnemonic_slotWord h.mem_wf hw hf hg hi }

/-- `EOUT_LEN` of a success (R125). -/
theorem storeEntropy_eoutLen_toNat {s : State} {e : List Byte} (he : e.length ≤ 32) :
    (storeEntropy e s).eoutLen.toNat = e.length := by
  rw [storeEntropy_eoutLen, BitVec.toNat_ofNat]
  exact Nat.mod_eq_of_lt (by omega)

/-- Every byte DECODE lists in memory is a byte location, when every byte listed before was one. -/
theorem storeEntropy_mapped {s : State} (h : Inv s) {e : List Byte} (he : e.length ≤ 32) :
    ∀ c ∈ (storeEntropy e s).mem, IsByteAddr s.params c.1 := by
  intro c hc
  rcases Memory.mem_writeBytes hc with hc | ⟨hlo, hhi⟩
  · exact h.mem_mapped c (Memory.mem_clear hc)
  · rw [show c.1 = eoutBase + (c.1 - eoutBase) by omega]
    exact isByteAddr_eout (by omega)

/-- A success of DECODE leaves every byte of the word slots alone (R125). -/
theorem storeEntropy_slot {s : State} {e : List Byte} (he : e.length ≤ 32) (i j : Nat) :
    (storeEntropy e s).mem.read (slotBase i + 1 + j) = s.mem.read (slotBase i + 1 + j) :=
  storeEntropy_outside he (by unfold slotBase slotWindow; omega)

/-- The outputs of a success of DECODE keep the invariant: an entropy of legal length, and 0 beyond it (R125). -/
theorem inv_storeEntropy {s : State} (h : Inv s) {e : List Byte} (hlen : e.length ∈ entLens) :
    Inv (storeEntropy e s) := by
  have he : e.length ≤ 32 := by rw [mem_entLens] at hlen; omega
  have hcount := storeEntropy_eoutLen_toNat (s := s) he
  exact { h with
    mem_wf := Memory.wf_writeBytes (Memory.wf_clear h.mem_wf _ _) _ _
    mem_mapped := storeEntropy_mapped h he
    eoutLen_legal := .inr (hcount ▸ hlen)
    mwB_tail := fun i j hj hjw => (storeEntropy_slot he i j).trans (h.mwB_tail i j hj hjw)
    eout_tail := fun i hi h32 => storeEntropy_beyond (hcount ▸ hi) h32
    slots_spell := fun i hi =>
      (Memory.readBytes_congr fun k _ => storeEntropy_slot he i k).trans (h.slots_spell i hi) }

/-- Both failures of ENCODE and its success keep the invariant. -/
theorem inv_encodeComplete {s : State} (h : Inv s) (hb : s.busy = true) : Inv (encodeComplete s) := by
  rcases encodeComplete_cases s with ⟨hvok, e⟩ | ⟨hvok, -, e⟩ | ⟨hvok, hlen, e⟩ <;> rw [e]
  · exact inv_raise h hb _ (by simp [hvok]) (by simp) (by simp)
  · exact inv_raise h hb _ (by simp [hvok]) (by simp) (by simp)
  · have hcount : (entropyGroups s.entropyIn).length ∈ wordCounts := by
      rw [entropyGroups_length, entropyIn_length]
      exact wordCount_mem hlen
    exact inv_reportSuccess (inv_storeMnemonic h hvok hcount fun _ => mem_entropyGroups_lt) hvok

/-- The five failures of DECODE and its success keep the invariant. -/
theorem inv_decodeComplete {s : State} (h : Inv s) (hb : s.busy = true) : Inv (decodeComplete s) := by
  rcases decodeComplete_cases s with ⟨hvok, e⟩ | ⟨hvok, -, e⟩ | ⟨hvok, -, -, e⟩ | ⟨hvok, -, -, f, hf, e⟩ |
    ⟨hvok, -, hcount, idx, hidx, ⟨-, e⟩ | ⟨-, e⟩⟩ <;> rw [e]
  · exact inv_raise h hb _ (by simp [hvok]) (by simp) (by simp)
  · exact inv_raise h hb _ (by simp [hvok]) (by simp) (by simp)
  · exact inv_raise h hb _ (by simp [hvok]) (by simp) (by simp)
  · obtain ⟨k, tok, -, -, -, rfl⟩ := lookUpTokens_error.1 hf
    exact inv_raise h hb _ (by simp [hvok]) (by simp) (by simp)
  · exact inv_raise h hb _ (by simp [hvok]) (by simp) (by simp)
  · rw [← lookUpTokens_length hidx] at hcount
    exact inv_reportSuccess (inv_storeEntropy h (reassemble_length_mem hcount)) hvok

/-- Every effect of the engine's turn keeps the invariant. -/
theorem EngineEffect.inv {s t : State} (e : EngineEffect s t) (h : Inv s) : Inv t := by
  cases e with
  | none => exact h
  | encoded busy _ => exact inv_encodeComplete h busy
  | decoded busy _ => exact inv_decodeComplete h busy

/-! The step and the runs. -/

/-- Every step keeps the invariant: the engine's, the host's and the reset's. -/
theorem inv_step {s t : State} (h : Inv s) (e : step s = .next t) : Inv t := by
  have hpop : Inv s.popped := inv_port h _ _
  obtain ⟨-, ⟨-, -, he⟩ | ⟨-, -, _, he, -⟩ | ⟨-, -, src, _, -, hf, rfl⟩⟩ := step_cases e
  · exact he.inv hpop
  · exact he.inv hpop
  · exact inv_resetStep hpop hf

/-- Every reachable state satisfies the invariant. -/
theorem Reachable.inv {c : Config} {s : State} (h : Reachable c s) : Inv s := by
  induction h with
  | reset hc events => exact inv_port (inv_resetOf hc) _ events
  | step _ e ih => exact inv_step ih e

/-- In a state of the invariant `STATUS` has one of the eight values of R30 (i). -/
theorem Inv.statusWord_mem {s : State} (h : Inv s) :
    s.statusWord ∈ [0x4#32, 0x5#32, 0x6#32, 0x8#32, 0x9#32, 0xA#32, 0xD#32, 0xE#32] := by
  have hbd := h.not_busy_done
  have hno : s.vok = false → s.errf = true := fun e => (h.no_vocab_err e).2
  have hseen := h.errf_seen
  unfold State.statusWord
  generalize s.vok = vok at *
  generalize s.errf = errf at *
  generalize s.done = done at *
  generalize s.busy = busy at *
  revert vok errf done busy
  decide

/-- The invariant says R30, clauses (a) to (i). -/
theorem Inv.r30 {s : State} (h : Inv s) : R30 s := by
  refine ⟨h.busy_iff_op, h.not_busy_done, h.errf_iff, h.no_vocab_err, ⟨?_, ?_⟩, ⟨fun i hi => ?_, h.mwB_tail, h.eout_tail⟩,
    fun hne => ?_, ⟨h.err_ref, h.err_info⟩, h.statusWord_mem⟩
  · exact List.mem_cons.2 h.mcount_legal
  · exact List.mem_cons.2 h.eoutLen_legal
  · have hlen : s.mwLen.get i = 0 := h.mwLen_tail i hi
    exact ⟨h.midx_tail i hi, hlen, fun j hj => h.mwB_tail i j (by rw [hlen]; exact Nat.zero_le j) hj⟩
  · have hpos : s.mcount.toNat ≠ 0 := fun e => hne (BitVec.eq_of_toNat_eq e)
    exact ⟨h.mcount_vok hpos, h.slots_spell⟩

/-- Settles O40: every reachable state satisfies the invariant, and the invariant says R30. -/
theorem reachableStatesMeetR30 : Obligations.ReachableStatesMeetR30 := by
  unfold Obligations.ReachableStatesMeetR30
  exact fun _ _ h => h.inv.r30

end Sys2Proof.Machine

/-! PROOFS of family 20_memory: the two access primitives over the address map of R41, the frame of every host
transaction, and R47, the inputs of a busy block. -/

namespace Sys2Proof.Machine

/-! The address map: where a host write stores, and what a byte location reads. -/

/-- The read/write locations are exactly `EIN_LEN`, `TXT_LEN`, `EIN[i]` and `TXT[k]` (R43), by their addresses. -/
theorem writable_locate_iff {p : Params} {a : Addr} :
    (locate p a).writable = true ↔
      a.toNat = 6 ∨ a.toNat = 7 ∨ (0x0020 ≤ a.toNat ∧ a.toNat < 0x0040) ∨
        (0x1000 ≤ a.toNat ∧ a.toNat < 0x1000 + p.txtCap) := by
  constructor
  · intro h
    cases hl : locate p a <;> rw [hl] at h <;> simp only [Loc.writable, reduceCtorEq] at h
    · exact .inl (locate_eq_einLen.1 hl)
    · exact .inr (.inl (locate_eq_txtLen.1 hl))
    · rw [locate_eq_ein] at hl; unfold einBase at hl; omega
    · rw [locate_eq_txt] at hl; unfold txtBase at hl; omega
  · rintro (h | h | h | h)
    · rw [locate_eq_einLen.2 h]; rfl
    · rw [locate_eq_txtLen.2 h]; rfl
    · rw [(locate_eq_ein (i := a.toNat - 0x20)).2 (by unfold einBase; omega)]; rfl
    · rw [(locate_eq_txt (k := a.toNat - 0x1000)).2 (by unfold txtBase; omega)]; rfl

/-- A byte of the buffers a host may write is where R41 puts it. -/
theorem byteAddr_of_buffer {p : Params} {a : Addr} (h : (0x0020 ≤ a.toNat ∧ a.toNat < 0x0040) ∨
    (0x1000 ≤ a.toNat ∧ a.toNat < 0x1000 + p.txtCap)) : (locate p a).byteAddr = some a.toNat :=
  byteAddr_locate_iff.2 ⟨rfl, by omega⟩

/-- A read of a byte location answers the byte, zero-extended (R42). -/
theorem memRead_byte {s : State} {a : Addr} {x : Nat} (h : (locate s.params a).byteAddr = some x) :
    memRead s a = (s.mem.read x).setWidth 32 := by
  unfold memRead
  cases hl : locate s.params a <;> rw [hl] at h <;> cases h <;> rfl

/-- A read of an unmapped address answers 0 (R45). -/
theorem memRead_unmapped {s : State} {a : Addr} (hw : s.params.Wf) (h : UnmappedAddr s.params a.toNat) :
    memRead s a = 0 := by
  simp only [memRead, locate_unmapped hw h]

/-- A read of `CMD` answers 0 (R41). -/
theorem memRead_cmd (s : State) : memRead s 0x0000#16 = 0 := by
  rw [memRead, locate_eq_cmd.2 rfl]

/-! What an idle block's read/write locations store (R44). -/

theorem memWrite_einLen {s : State} (hb : s.busy = false) (v : Word32) :
    memWrite 0x0006#16 v s = { s with einLen := v.extractLsb' 0 16 } := by
  rw [memWrite, hb, if_neg Bool.false_ne_true, locate_eq_einLen.2 rfl, setWidth_eq_extract16]

theorem memWrite_txtLen {s : State} (hb : s.busy = false) (v : Word32) :
    memWrite 0x0007#16 v s = { s with txtLen := v.extractLsb' 0 16 } := by
  rw [memWrite, hb, if_neg Bool.false_ne_true, locate_eq_txtLen.2 rfl, setWidth_eq_extract16]

/-- Of the five things a write can do, a write of a buffer's address stores the byte. -/
theorem memWrite_byte {s : State} (hb : s.busy = false) {a : Addr} (h : (0x0020 ≤ a.toNat ∧ a.toNat < 0x0040) ∨
    (0x1000 ≤ a.toNat ∧ a.toNat < 0x1000 + s.params.txtCap)) (v : Word32) :
    memWrite a v s = { s with mem := s.mem.write a.toNat (v.extractLsb' 0 8) } := by
  rw [← setWidth_eq_extract8]
  rcases memWrite_cases hb a v with ⟨hl, -⟩ | ⟨hl, -⟩ | ⟨hl, -⟩ | ⟨-, e⟩ | ⟨hro, -, -⟩
  · rw [locate_eq_cmd] at hl; omega
  · rw [locate_eq_einLen] at hl; omega
  · rw [locate_eq_txtLen] at hl; omega
  · exact e
  · rw [writable_locate_iff.2 (by omega)] at hro; cases hro

/-- Settles O10: each read/write location by the equation of its write. -/
theorem writesStoreTheTruncatedValue : Obligations.WritesStoreTheTruncatedValue := by
  unfold Obligations.WritesStoreTheTruncatedValue
  intro s v hw hb
  have ⟨_, _, _, hcap, _⟩ := hw
  have byte {n : Nat} (hn : n < 65536) (h : (0x0020 ≤ n ∧ n < 0x0040) ∨ (0x1000 ≤ n ∧ n < 0x1000 + s.params.txtCap)) :
      exec (.wr (BitVec.ofNat 16 n) v) s = .next { s with mem := s.mem.write n (v.extractLsb' 0 8) } := by
    have e := memWrite_byte hb (a := BitVec.ofNat 16 n) (by rw [ofNat16_toNat hn]; exact h) v
    rw [ofNat16_toNat hn] at e
    exact congrArg _ e
  exact ⟨congrArg _ (memWrite_einLen hb v), congrArg _ (memWrite_txtLen hb v),
    fun i hi => byte (by omega) (.inl (by omega)), fun k hk => byte (by omega) (.inr (by omega))⟩

/-! A read after a write. -/

/-- A stored byte is read back at its address. -/
theorem memRead_write_eq {s : State} (hm : s.mem.wf = true) {a : Addr}
    (ha : (locate s.params a).byteAddr = some a.toNat) (c : Byte) :
    memRead { s with mem := s.mem.write a.toNat c } a = c.setWidth 32 :=
  calc memRead { s with mem := s.mem.write a.toNat c } a
      = ((s.mem.write a.toNat c).read a.toNat).setWidth 32 := memRead_byte ha
    _ = c.setWidth 32 := by rw [Memory.read_write_eq hm]

/-- A byte stored at one address is not read at another. -/
theorem memRead_write_ne (s : State) {a b : Addr} (h : b ≠ a) (c : Byte) :
    memRead { s with mem := s.mem.write a.toNat c } b = memRead s b := by
  refine memRead_eq_of rfl (fun x hx => ?_) rfl ⟨rfl, rfl, rfl, rfl, rfl⟩ ⟨rfl, rfl, rfl⟩ rfl (fun _ => rfl) fun _ => rfl
  rw [byteAddr_locate hx]
  exact Memory.read_write_ne _ _ fun e => h (BitVec.eq_of_toNat_eq e)

/-- `EIN_LEN` is read at its address only. -/
theorem memRead_einLen_ne (s : State) {b : Addr} (h : b ≠ 0x0006#16) (w : BitVec 16) :
    memRead { s with einLen := w } b = memRead s b :=
  memRead_eq_of rfl (fun _ _ => rfl) rfl ⟨rfl, rfl, rfl, rfl, rfl⟩ ⟨rfl, rfl, rfl⟩ rfl
    (fun hl => absurd (BitVec.eq_of_toNat_eq (locate_eq_einLen.1 hl)) h) fun _ => rfl

/-- `TXT_LEN` is read at its address only. -/
theorem memRead_txtLen_ne (s : State) {b : Addr} (h : b ≠ 0x0007#16) (w : BitVec 16) :
    memRead { s with txtLen := w } b = memRead s b :=
  memRead_eq_of rfl (fun _ _ => rfl) rfl ⟨rfl, rfl, rfl, rfl, rfl⟩ ⟨rfl, rfl, rfl⟩ rfl (fun _ => rfl)
    fun hl => absurd (BitVec.eq_of_toNat_eq (locate_eq_txtLen.1 hl)) h

/-- Settles O11: the write of each kind of location, then the read of its address and of any other. -/
theorem readAfterWriteReturnsTheValue : Obligations.ReadAfterWriteReturnsTheValue := by
  unfold Obligations.ReadAfterWriteReturnsTheValue
  intro s a v hinv hb ha
  refine ⟨memWrite a v s, rfl, ?_⟩
  rcases ha with rfl | rfl | hbuf
  · rw [memWrite_einLen hb]
    refine ⟨?_, fun b hne => memRead_einLen_ne s hne _⟩
    rw [memRead, locate_eq_einLen.2 rfl]
    rfl
  · rw [memWrite_txtLen hb]
    refine ⟨?_, fun b hne => memRead_txtLen_ne s hne _⟩
    rw [memRead, locate_eq_txtLen.2 rfl]
    rfl
  · rw [memWrite_byte hb hbuf]
    refine ⟨?_, fun b hne => memRead_write_ne s hne _⟩
    rw [memRead_write_eq hinv.mem_wf (byteAddr_of_buffer hbuf), if_neg (by omega)]

/-! Addresses that store nothing. -/

/-- Settles O12: the address names no location, so it reads 0 and its write is ignored. -/
theorem unmappedAddressesReadZeroAndIgnoreWrites : Obligations.UnmappedAddressesReadZeroAndIgnoreWrites := by
  unfold Obligations.UnmappedAddressesReadZeroAndIgnoreWrites
  intro s a v hw hu
  have hl : locate s.params a = .unmapped := locate_unmapped hw hu
  refine ⟨?_, wr_ignored (by rw [hl]; rfl) (by rw [hl]; simp)⟩
  rw [← memRead_unmapped hw hu]
  rfl

/-- Settles O13: no read-only address is `CMD` or one of the read/write locations of R43. -/
theorem readOnlyLocationsIgnoreWrites : Obligations.ReadOnlyLocationsIgnoreWrites := by
  unfold Obligations.ReadOnlyLocationsIgnoreWrites
  intro s a v hw
  have h31 : s.params.wordMax ≤ 31 := hw.2.1
  refine ⟨fun ha => ?_, ?_⟩
  · have hrange : a.toNat ∈ [1, 2, 3, 4, 5, 8, 9] ∨ (0x40 ≤ a.toNat ∧ a.toNat < 0x78) ∨
        (0x100 ≤ a.toNat ∧ a.toNat < 0x400) := by
      rcases ha with h | h | h | ⟨i, j, h⟩
      · exact .inl h
      all_goals omega
    simp only [List.mem_cons, List.not_mem_nil, or_false] at hrange
    have hro : ¬ (locate s.params a).writable = true := by rw [writable_locate_iff]; omega
    exact wr_ignored (by simpa using hro) (by rw [Ne, locate_eq_cmd]; omega)
  · rw [← memRead_cmd s]
    rfl

/-- Settles O14: the registers by the address of each, the four byte buffers by `memRead_byte`. -/
theorem readsFollowTheAddressMap : Obligations.ReadsFollowTheAddressMap := by
  unfold Obligations.ReadsFollowTheAddressMap
  intro s hw
  have ⟨_, h31, _, hcap, _⟩ := hw
  have byte {n : Nat} (hn : n < 65536) (h : (0x0020 ≤ n ∧ n < 0x0060) ∨
      (∃ i j, i < 24 ∧ j < s.params.wordMax ∧ j < 31 ∧ n = slotBase i + 1 + j) ∨
      (0x1000 ≤ n ∧ n < 0x1000 + s.params.txtCap)) :
      memRead s (BitVec.ofNat 16 n) = (s.mem.read n).setWidth 32 :=
    memRead_byte (byteAddr_locate_iff.2 ⟨(ofNat16_toNat hn).symm, h⟩)
  refine ⟨fun _ => rfl, memRead_cmd s, ?_, ?_, ?_, ?_, ?_, ?_, ?_, ?_, ?_, fun i hi => byte (by omega) (.inl (by omega)),
    fun i hi => byte (by omega) (.inl (by omega)), fun i => ?_, fun i => ?_,
    fun i j hj => byte (by omega) (.inr (.inl ⟨i, j, i.isLt, hj, by omega, rfl⟩)),
    fun k hk => byte (by omega) (.inr (.inr (by omega))), fun a hu => memRead_unmapped hw hu⟩
  · rw [memRead, locate_eq_status.2 rfl]
  · rw [memRead, locate_eq_err.2 rfl]
  · rw [memRead, locate_eq_errInfo.2 rfl]
  · rw [memRead, locate_eq_errOff.2 rfl]
  · rw [memRead, locate_eq_errLen.2 rfl]
  · rw [memRead, locate_eq_einLen.2 rfl]
  · rw [memRead, locate_eq_txtLen.2 rfl]
  · rw [memRead, locate_eq_eoutLen.2 rfl]
  · rw [memRead, locate_eq_mcount.2 rfl]
  · have hl : locate s.params (BitVec.ofNat 16 (0x0060 + i)) = .midx i := locate_eq_midx.2 (ofNat16_toNat (by omega))
    rw [memRead, hl]
  · have hl : locate s.params (BitVec.ofNat 16 (0x0100 + 32 * i)) = .mwLen i :=
      locate_eq_mwLen.2 (ofNat16_toNat (by omega))
    rw [memRead, hl]

/-! The frame of every instruction. -/

/-- Everything one instruction can make of a state, with the operands that make it. -/
inductive ExecEffect (s : State) : Instr → State → Prop where
  | none (i : Instr) : ExecEffect s i s
  | started {i : Instr} (c : BitVec 2) (idle : s.busy = false)
      (hi : i = .encode ∨ i = .decode ∨ i = .wr 0x0000#16 1#32 ∨ i = .wr 0x0000#16 2#32) : ExecEffect s i (start c s)
  | einLen (v : Word32) (idle : s.busy = false) : ExecEffect s (.wr 0x0006#16 v) { s with einLen := v.setWidth 16 }
  | txtLen (v : Word32) (idle : s.busy = false) : ExecEffect s (.wr 0x0007#16 v) { s with txtLen := v.setWidth 16 }
  | byte (a : Addr) (v : Word32) (idle : s.busy = false) (hw : (locate s.params a).writable = true)
      (ha : (locate s.params a).byteAddr = some a.toNat) :
      ExecEffect s (.wr a v) { s with mem := s.mem.write a.toNat (v.setWidth 8) }
  | read (a : Addr) : ExecEffect s (.rd a) { s with rdata := memRead s a }

/-- A location of `EIN` or `TXT` is read/write (R43) and stands in memory at its own address (R41). -/
theorem buffer_writable_and_byteAddr {p : Params} {a : Addr} (h : ∃ i, locate p a = .ein i ∨ locate p a = .txt i) :
    (locate p a).writable = true ∧ (locate p a).byteAddr = some a.toNat := by
  obtain ⟨i, h | h⟩ := h
  · rw [h, (locate_eq_ein.1 h).2]; exact ⟨rfl, rfl⟩
  · rw [h, (locate_eq_txt.1 h).2]; exact ⟨rfl, rfl⟩

/-- A write at a busy block is dropped; at an idle one it does what its location says (R43, R47). -/
theorem wr_execEffect (a : Addr) (v : Word32) (s : State) : ExecEffect s (.wr a v) (memWrite a v s) := by
  cases hb : s.busy
  · rcases memWrite_cases hb a v with ⟨hl, e⟩ | ⟨hl, e⟩ | ⟨hl, e⟩ | ⟨ha, e⟩ | ⟨-, -, e⟩ <;> rw [e]
    · obtain rfl : a = 0x0000#16 := BitVec.eq_of_toNat_eq (locate_eq_cmd.1 hl)
      rcases command_cases v s with ⟨rfl, e⟩ | ⟨rfl, e⟩ | ⟨-, -, e⟩ <;> rw [e]
      · exact .started 1 hb (.inr (.inr (.inl rfl)))
      · exact .started 2 hb (.inr (.inr (.inr rfl)))
      · exact .none _
    · obtain rfl : a = 0x0006#16 := BitVec.eq_of_toNat_eq (locate_eq_einLen.1 hl)
      exact .einLen v hb
    · obtain rfl : a = 0x0007#16 := BitVec.eq_of_toNat_eq (locate_eq_txtLen.1 hl)
      exact .txtLen v hb
    · obtain ⟨hw, hx⟩ := buffer_writable_and_byteAddr ha
      exact .byte a v hb hw hx
    · exact .none _
  · rw [memWrite_busy hb]
    exact .none _

/-- Every instruction's next state is one `ExecEffect` lists for it. -/
theorem exec_execEffect {i : Instr} {s t : State} (h : exec i s = .next t) : ExecEffect s i t := by
  cases i with
  | nop => cases h; exact .none _
  | encode =>
    cases h
    unfold issue
    cases hb : s.busy
    · exact .started 1 hb (.inl rfl)
    · exact .none _
  | decode =>
    cases h
    unfold issue
    cases hb : s.busy
    · exact .started 2 hb (.inr (.inl rfl))
    · exact .none _
  | wr a v => cases h; exact wr_execEffect a v s
  | rd a => cases h; exact .read a

namespace ExecEffect

variable {s t : State} {i : Instr}

theorem rdata (e : ExecEffect s i t) (h : ∀ a, i ≠ .rd a) : t.rdata = s.rdata := by
  cases e with
  | read a => exact absurd rfl (h a)
  | _ => rfl

theorem einLen_eq (e : ExecEffect s i t) (h : ∀ v, i ≠ .wr 0x0006#16 v) : t.einLen = s.einLen := by
  cases e with
  | einLen v _ => exact absurd rfl (h v)
  | _ => rfl

theorem txtLen_eq (e : ExecEffect s i t) (h : ∀ v, i ≠ .wr 0x0007#16 v) : t.txtLen = s.txtLen := by
  cases e with
  | txtLen v _ => exact absurd rfl (h v)
  | _ => rfl

theorem flags (e : ExecEffect s i t) (h : ¬ (s.busy = false ∧
    (i = .encode ∨ i = .decode ∨ i = .wr 0x0000#16 1#32 ∨ i = .wr 0x0000#16 2#32))) :
    t.op = s.op ∧ t.busy = s.busy ∧ t.done = s.done := by
  cases e with
  | started c idle hi => exact absurd ⟨idle, hi⟩ h
  | _ => exact ⟨rfl, rfl, rfl⟩

theorem read_of_not_stored (e : ExecEffect s i t) {x : Nat} (h : ¬ ∃ a v, i = .wr a v ∧ s.busy = false ∧
    (locate s.params a).writable = true ∧ (locate s.params a).byteAddr = some x) : t.mem.read x = s.mem.read x := by
  cases e with
  | byte a v idle hw ha =>
    refine Memory.read_write_ne _ _ fun hx => h ⟨a, v, rfl, idle, hw, ?_⟩
    rw [hx]
    exact ha
  | _ => rfl

end ExecEffect

namespace HostEffect

variable {s t : State}

theorem sameReport (e : HostEffect s t) : SameReport s t := by
  cases e <;> exact ⟨rfl, rfl, rfl, rfl, rfl⟩

theorem sameVocabulary (e : HostEffect s t) : SameVocabulary s t := by
  cases e <;> exact ⟨rfl, rfl, rfl, rfl⟩

theorem pending (e : HostEffect s t) : t.pending = s.pending := by
  cases e <;> rfl

/-- Between `EIN` and `TXT` stand the outputs, and no host write reaches them (R46). -/
theorem read_output (e : HostEffect s t) {x : Nat} (hx : 0x0040 ≤ x ∧ x < 0x1000) : t.mem.read x = s.mem.read x := by
  cases e with
  | byte a b _ ha =>
    have hbuf := writable_locate_iff.1 (buffer_writable_and_byteAddr ha).1
    exact Memory.read_write_ne _ _ (by omega)
  | _ => rfl

theorem sameMnemonic (e : HostEffect s t) (hw : s.params.wordMax ≤ 31) : SameMnemonic s t := by
  have hslot : ∀ i j, i < 24 → j < s.params.wordMax →
      t.mem.read (slotBase i + 1 + j) = s.mem.read (slotBase i + 1 + j) :=
    fun i j hi hj => e.read_output (by unfold slotBase slotWindow; omega)
  cases e <;> exact ⟨rfl, rfl, rfl, hslot⟩

theorem sameEntropy (e : HostEffect s t) : SameEntropy s t := by
  have heout : ∀ i, i < 32 → t.mem.read (eoutBase + i) = s.mem.read (eoutBase + i) :=
    fun i hi => e.read_output (by unfold eoutBase; omega)
  cases e <;> exact ⟨rfl, heout⟩

/-- While the block is busy a host transaction is at most a read (R47). -/
theorem of_busy (e : HostEffect s t) (hb : s.busy = true) : t = s ∨ ∃ v, t = { s with rdata := v } := by
  cases e with
  | none => exact .inl rfl
  | read v => exact .inr ⟨v, rfl⟩
  | started _ idle _ => rw [hb] at idle; cases idle
  | einLen _ idle => rw [hb] at idle; cases idle
  | txtLen _ idle => rw [hb] at idle; cases idle
  | byte _ _ idle _ => rw [hb] at idle; cases idle

end HostEffect

/-- Settles O15: the elements no host transaction writes, then those of `ExecEffect`, each by its instruction. -/
theorem hostTransactionsChangeOnlyWhatTheyName : Obligations.HostTransactionsChangeOnlyWhatTheyName := by
  unfold Obligations.HostTransactionsChangeOnlyWhatTheyName
  intro i s t hw h
  obtain ⟨t', h', host⟩ := exec_effect i s
  obtain rfl : t = t' := by rw [h] at h'; cases h'; rfl
  have own : ExecEffect s i t := exec_execEffect h
  exact ⟨host.sameReport, host.sameMnemonic hw.2.1, host.sameEntropy, host.sameVocabulary, host.pending,
    own.rdata, fun _ hx => own.read_of_not_stored hx, own.einLen_eq, own.txtLen_eq, own.flags⟩

/-! The inputs of a busy block (R47). -/

/-- `EIN` and `TXT` stand outside the windows the engine writes (R41), so equality there keeps the inputs. -/
theorem sameInputs_of_read {s t : State} (hein : t.einLen = s.einLen) (htxt : t.txtLen = s.txtLen)
    (hmem : ∀ x, x < 0x0040 ∨ 0x0400 ≤ x → t.mem.read x = s.mem.read x) : SameInputs s t :=
  ⟨hein, htxt, fun _ _ => hmem _ (by unfold einBase; omega), fun _ _ => hmem _ (by unfold txtBase; omega)⟩

/-- What every completion leaves of the state it ends: the inputs, the vocabulary, and an idle block (R143). -/
structure Completion (s t : State) : Prop where
  inputs : SameInputs s t
  vocabulary : SameVocabulary s t
  idle : t.busy = false

/-- A failure clears bytes of the outputs only (R152). -/
theorem raise_completion (f : Failure) (s : State) : Completion s (raise f s) where
  inputs := by
    refine sameInputs_of_read (by simp) (by simp) fun x hx => ?_
    rw [raise_mem, clearOutputs]
    split
    · rw [clearMnemonic_mem, Memory.read_clear, if_neg (by unfold slotWindow mnCap; omega)]
    · split
      · rw [clearEntropy_mem, Memory.read_clear, if_neg (by unfold eoutBase entCap; omega)]
      · rfl
  vocabulary := ⟨by simp, by simp, by simp, by simp⟩
  idle := rfl

/-- The outputs of ENCODE stand in the word slots (R110). -/
theorem encodeComplete_completion {s : State} (hw : s.params.wordMax ≤ 31) : Completion s (encodeComplete s) := by
  unfold encodeComplete
  cases hout : encodeOutcome s with
  | error f => exact raise_completion f s
  | ok g =>
    have hlen : g.length ≤ 24 := encodeOutcome_ok_length_le hout
    exact ⟨sameInputs_of_read rfl rfl fun x hx => storeMnemonic_outside hw hlen (by omega), ⟨rfl, rfl, rfl, rfl⟩, rfl⟩

/-- The outputs of DECODE stand in `EOUT` (R125). -/
theorem decodeComplete_completion (s : State) : Completion s (decodeComplete s) := by
  rcases decodeComplete_cases s with ⟨-, e⟩ | ⟨-, -, e⟩ | ⟨-, -, -, e⟩ | ⟨-, -, -, f, -, e⟩ |
    ⟨-, -, hcount, idx, hidx, ⟨-, e⟩ | ⟨-, e⟩⟩ <;> rw [e]
  case inr.inr.inr.inr.inr =>
    rw [← lookUpTokens_length hidx] at hcount
    have hlen : (reassemble idx).length ≤ 32 := reassemble_le hcount
    exact ⟨sameInputs_of_read rfl rfl fun x hx => storeEntropy_outside hlen (by omega), ⟨rfl, rfl, rfl, rfl⟩, rfl⟩
  all_goals exact raise_completion _ s

/-- The turn of the engine changes nothing or completes the operation (R143). -/
theorem EngineEffect.completion {s t : State} (e : EngineEffect s t) (hw : s.params.wordMax ≤ 31) :
    t = s ∨ Completion s t := by
  cases e with
  | none => exact .inl rfl
  | encoded _ _ => exact .inr (encodeComplete_completion hw)
  | decoded _ _ => exact .inr (decodeComplete_completion s)

/-- Settles O8: a host transaction at a busy block is at most a read, and the engine's turn a completion. -/
theorem writesWhileBusyAreDropped : Obligations.WritesWhileBusyAreDropped := by
  unfold Obligations.WritesWhileBusyAreDropped
  intro s hb
  have hissue (c : BitVec 2) : issue c s = s := by rw [issue, if_pos hb]
  refine ⟨fun a v => congrArg _ (memWrite_busy hb a v), rfl, congrArg _ (hissue 1), congrArg _ (hissue 2),
    fun t h hnr => ?_⟩
  obtain ⟨⟨hw, -⟩, ⟨-, -, e⟩ | ⟨-, -, _, e, -⟩ | ⟨hr, -, -⟩⟩ := step_cases h
  · rcases e.completion hw.2.1 with rfl | c
    · exact ⟨sameInputs_of_read rfl rfl fun _ _ => rfl, ⟨rfl, rfl, rfl, rfl⟩, fun _ => rfl⟩
    · exact ⟨c.inputs, c.vocabulary, fun hbt => by rw [c.idle] at hbt; cases hbt⟩
  · rcases e.of_busy hb with rfl | ⟨v, rfl⟩ <;>
      exact ⟨sameInputs_of_read rfl rfl fun _ _ => rfl, ⟨rfl, rfl, rfl, rfl⟩, fun _ => rfl⟩
  · exact absurd hr hnr

/-! The step. -/

/-- Settles O4: the record at the head of the schedule is decoded by the host's turn. -/
theorem stepRunsTheDecodedTransaction : Obligations.StepRunsTheDecodedTransaction := by
  unfold Obligations.StepRunsTheDecodedTransaction
  intro s r rest i hw hp hd
  have hrec : decodeHost r = .ok i := hd
  rw [step_of_wf hw, State.popped, hp]
  simp only [turn, hostTurn, hrec, List.tail_cons]

end Sys2Proof.Machine

/-! PROOFS of family 30_encoding: R60 and R63, the decoder on both formats, said once as equations and cases; R62, what
a command word does when it is written to `CMD`; R65, the readings of `STATUS`. -/

namespace Sys2Proof

/-! The decoder, format by format. -/

/-- Everything the decoder can answer to a command word (R63). -/
theorem decodeCmd_cases (w : Word32) :
    (w = 0#32 ∧ decodeCmd w = .ok .nop) ∨ (w = 1#32 ∧ decodeCmd w = .ok .encode) ∨
      (w = 2#32 ∧ decodeCmd w = .ok .decode) ∨
      ((w ≠ 0#32 ∧ w ≠ 1#32 ∧ w ≠ 2#32) ∧ decodeCmd w = .error .reservedCommand) := by
  unfold decodeCmd
  by_cases h0 : w = 0#32
  · exact .inl ⟨h0, if_pos h0⟩
  · by_cases h1 : w = 1#32
    · exact .inr (.inl ⟨h1, by rw [if_neg h0, if_pos h1]⟩)
    · by_cases h2 : w = 2#32
      · exact .inr (.inr (.inl ⟨h2, by rw [if_neg h0, if_neg h1, if_pos h2]⟩))
      · exact .inr (.inr (.inr ⟨⟨h0, h1, h2⟩, by rw [if_neg h0, if_neg h1, if_neg h2]⟩))

/-- The decoder on the record of three fields (R60). -/
theorem decodeHost_record (w : BitVec 1) (a : Addr) (d : Word32) :
    decodeHost (record w a d) =
      if w = 1#1 then .ok (.wr a d) else if d = 0#32 then .ok (.rd a) else .error .readDataNotZero := by
  simp only [decodeHost, record_direction, record_addr, record_data, decide_eq_true_eq]

/-- Any 49 bits are the record of their three fields (R60). -/
theorem eq_record (t : BitVec 49) :
    t = record (t.extractLsb' 48 1) (t.extractLsb' 32 16) (t.extractLsb' 0 32) := by
  have ht := t.isLt
  apply BitVec.eq_of_toNat_eq
  rw [record_toNat]
  simp only [BitVec.extractLsb'_toNat, Nat.shiftRight_eq_div_pow]
  omega

/-- Everything the decoder can answer to a record (R60). -/
theorem decodeHost_cases (t : BitVec 49) :
    (∃ a d, t = record 1#1 a d ∧ decodeHost t = .ok (.wr a d)) ∨
      (∃ a, t = record 0#1 a 0#32 ∧ decodeHost t = .ok (.rd a)) ∨ decodeHost t = .error .readDataNotZero := by
  obtain ⟨w, a, d, rfl⟩ : ∃ w a d, t = record w a d := ⟨_, _, _, eq_record t⟩
  rw [decodeHost_record]
  by_cases hw : w = 1#1
  · exact .inl ⟨a, d, by rw [hw], if_pos hw⟩
  · obtain rfl : w = 0#1 := by bv_omega
    by_cases hd : d = 0#32
    · exact .inr (.inl ⟨a, by rw [hd], by rw [if_neg hw, if_pos hd]⟩)
    · exact .inr (.inr (by rw [if_neg hw, if_neg hd]))

/-- Every instruction is read back from its code (R60, R63). -/
theorem decode_encode (i : Instr) : decode (encode i) = .ok i := by
  cases i with
  | nop => rfl
  | encode => rfl
  | decode => rfl
  | wr a d => exact decodeHost_record 1#1 a d
  | rd a => exact decodeHost_record 0#1 a 0#32

/-- A command word that is read as an instruction is the word of that instruction (R63). -/
theorem encode_of_decodeCmd {w : Word32} {i : Instr} (h : decodeCmd w = .ok i) : encode i = .cmd w := by
  rcases decodeCmd_cases w with ⟨rfl, e⟩ | ⟨rfl, e⟩ | ⟨rfl, e⟩ | ⟨-, e⟩ <;> rw [e] at h <;> cases h <;> rfl

/-- A record that is read as an instruction is the record of that instruction (R60). -/
theorem encode_of_decodeHost {t : BitVec 49} {i : Instr} (h : decodeHost t = .ok i) : encode i = .host t := by
  rcases decodeHost_cases t with ⟨a, d, rfl, e⟩ | ⟨a, rfl, e⟩ | e <;> rw [e] at h <;> cases h <;> rfl

/-- A command word is read as a command exactly when it is that command's word (R63). -/
theorem decodeCmd_eq_ok_iff {w v : Word32} {i : Instr} (hi : encode i = .cmd v) : decodeCmd w = .ok i ↔ w = v := by
  constructor
  · intro h
    have hw : Code.cmd v = .cmd w := hi.symm.trans (encode_of_decodeCmd h)
    exact (Code.cmd.inj hw).symm
  · rintro rfl
    have h := decode_encode i
    rwa [hi] at h

/-- The reserved words are all but 0, 1 and 2 (R63, R64). -/
theorem decodeCmd_eq_error_iff {w : Word32} :
    decodeCmd w = .error .reservedCommand ↔ w ≠ 0#32 ∧ w ≠ 1#32 ∧ w ≠ 2#32 := by
  rcases decodeCmd_cases w with ⟨rfl, e⟩ | ⟨rfl, e⟩ | ⟨rfl, e⟩ | ⟨h, e⟩
  · simp [e]
  · simp [e]
  · simp [e]
  · exact iff_of_true e h

/-- Settles O1: each direction along the formats, by what the decoder answers to the words of each. -/
theorem decoderAndEncoderAreInverse : Obligations.DecoderAndEncoderAreInverse := by
  unfold Obligations.DecoderAndEncoderAreInverse
  refine ⟨fun i _ => decode_encode i, fun c i h => ?_⟩
  cases c with
  | cmd w => exact encode_of_decodeCmd h
  | host t => exact encode_of_decodeHost h

/-- Settles O2: the words are closed terms and the decoder evaluates on them. -/
theorem wordsOfTheSpecDecode : Obligations.WordsOfTheSpecDecode := by
  unfold Obligations.WordsOfTheSpecDecode
  decide

end Sys2Proof

namespace Sys2Proof.Machine

/-! A command word written to `CMD`. -/

/-- A write of `CMD` is dropped while busy and a command otherwise (R47, R63). -/
theorem exec_wr_cmd (w : Word32) (s : State) :
    exec (.wr 0x0000#16 w) s = .next (if s.busy then s else command w s) := by
  rw [exec, execWr, memWrite, locate_eq_cmd.2 rfl]

/-- A word other than 1 and 2 starts nothing (R63, R144). -/
theorem command_ignored {w : Word32} (h1 : w ≠ 1#32) (h2 : w ≠ 2#32) (s : State) : command w s = s := by
  rw [command, if_neg h1, if_neg h2]

/-- A word that is read as a command has, written to `CMD`, the command's own effect, busy or idle (R62). -/
theorem exec_wr_cmd_of_decodeCmd {w : Word32} {i : Instr} (h : decodeCmd w = .ok i) (s : State) :
    exec (.wr 0x0000#16 w) s = exec i s := by
  rw [exec_wr_cmd]
  rcases decodeCmd_cases w with ⟨rfl, e⟩ | ⟨rfl, e⟩ | ⟨rfl, e⟩ | ⟨-, e⟩ <;> rw [e] at h <;> cases h
  · rw [command_ignored (by decide) (by decide), ite_self]; rfl
  · rfl
  · rfl

/-- Settles O3: each command has its one word, every other is reserved, and an idle block runs the word as a command. -/
theorem commandCodesAreTheWholeWord : Obligations.CommandCodesAreTheWholeWord := by
  unfold Obligations.CommandCodesAreTheWholeWord
  refine fun w => ⟨decodeCmd_eq_ok_iff rfl, decodeCmd_eq_ok_iff rfl, decodeCmd_eq_ok_iff rfl, decodeCmd_eq_error_iff,
    fun s hb => ?_⟩
  rw [exec_wr_cmd, hb, if_neg Bool.false_ne_true]
  refine ⟨?_, ?_, ?_, fun _ h1 h2 => ?_⟩
  · rintro rfl; rw [command_ignored (by decide) (by decide)]
  · rintro rfl; rfl
  · rintro rfl; rfl
  · rw [command_ignored h1 h2]

/-- Settles O5: the word's record is the write of `CMD` that carries it, and the step runs that write. -/
theorem commandWordRunsItsInstruction : Obligations.CommandWordRunsItsInstruction := by
  unfold Obligations.CommandWordRunsItsInstruction
  intro s c i h
  refine ⟨exec_wr_cmd_of_decodeCmd h s, fun rest hw hp => ?_⟩
  have hrec : decode (.host (Code.cmd c).asRecord) = .ok (.wr 0x0000#16 c) := decodeHost_record 1#1 0x0000#16 c
  rw [stepRunsTheDecodedTransaction s _ rest _ hw hp hrec, exec_wr_cmd_of_decodeCmd h]

/-! `STATUS`. -/

/-- A read of `STATUS` answers the status word (R42, R65). -/
theorem memRead_status (s : State) : memRead s 0x0001#16 = s.statusWord := by
  rw [memRead, locate_eq_status.2 rfl]

/-- The four flags stand at bits 3 to 0 and nothing above them: the sum does not wrap (R65). -/
theorem statusWord_toNat (s : State) :
    s.statusWord.toNat = s.vok.toNat * 8 + s.errf.toNat * 4 + s.done.toNat * 2 + s.busy.toNat := by
  have hvok := s.vok.toNat_le
  have herrf := s.errf.toNat_le
  have hdone := s.done.toNat_le
  have hbusy := s.busy.toNat_le
  rw [State.statusWord, BitVec.toNat_ofNat]
  omega

/-- Settles O49: the sum is the status word's value, and its eight values are R30 (i)'s. -/
theorem statusReadsItsFlags : Obligations.StatusReadsItsFlags := by
  unfold Obligations.StatusReadsItsFlags
  intro s
  rw [memRead_status]
  exact ⟨statusWord_toNat s, fun h => List.mem_map_of_mem (f := BitVec.toNat) h.statusWord_mem⟩

end Sys2Proof.Machine

/-! PROOFS of family 40_vocabulary: R80, the two branches of VINIT; R82 to R84, the reverse look-up in the spelling of
`word_of`; R85, the vocabulary along a step. -/

namespace Sys2Proof.Machine

/-! VINIT (R80). -/

theorem vinit_of_length_ne {src : List VWord} (h : src.length ≠ 2048) (s : State) :
    vinit src s = { s with vok := false, errf := true, err := 1, errInfo := 0, vf := [] } := if_pos h

theorem vinit_of_length_eq {src : List VWord} (h : src.length = 2048) (s : State) :
    vinit src s = { s with vok := true, errf := false, err := 0, errInfo := 0, vf := src } := if_neg (not_not.2 h)

/-- Settles O31: the two branches of VINIT. -/
theorem vinitChecksTheCount : Obligations.VinitChecksTheCount := by
  unfold Obligations.VinitChecksTheCount
  exact fun src s => ⟨fun h => by rw [vinit_of_length_ne h], fun h => vinit_of_length_eq h s⟩

/-! The reverse look-up (R82 to R84). -/

/-- The positions of a word in the table are the indices whose `word_of` it is (R81). -/
theorem getElem?_eq_some_iff_lt_wordOf {vf : List VWord} {v : Nat} {t : VWord} :
    vf[v]? = some t ↔ v < vf.length ∧ wordOf vf v = t := by
  refine ⟨fun h => ?_, fun ⟨hv, h⟩ => (getElem?_eq_some_iff_wordOf hv).2 h⟩
  have hv : v < vf.length := (List.getElem?_eq_some_iff.1 h).1
  exact ⟨hv, (getElem?_eq_some_iff_wordOf hv).1 h⟩

theorem indexOf_eq_none_iff_wordOf {vf : List VWord} {t : VWord} :
    indexOf vf t = none ↔ ∀ v, v < vf.length → wordOf vf v ≠ t := by
  simp only [indexOf_eq_none, List.mem_iff_getElem?, getElem?_eq_some_iff_lt_wordOf, not_exists, not_and]

theorem indexOf_eq_some_iff_wordOf {vf : List VWord} {t : VWord} {r : Nat} :
    indexOf vf t = some r ↔
      r < vf.length ∧ wordOf vf r = t ∧ ∀ v, v < vf.length → wordOf vf v = t → v ≤ r := by
  have last : (∀ v, r < v → vf[v]? ≠ some t) ↔ ∀ v, v < vf.length → wordOf vf v = t → v ≤ r := by
    refine forall_congr' fun v => ?_
    rw [Ne, getElem?_eq_some_iff_lt_wordOf, not_and, ← Nat.not_lt]
    tauto
  rw [indexOf_eq_some, getElem?_eq_some_iff_lt_wordOf, last, and_assoc]

/-- Settles O32: the two outcomes of the look-up, and a word beyond `WORD_MAX` is no entry of a fitting table (R6). -/
theorem reverseLookUpTakesTheLastOccurrence : Obligations.ReverseLookUpTakesTheLastOccurrence := by
  unfold Obligations.ReverseLookUpTakesTheLastOccurrence
  intro vf t hlen
  rw [← hlen]
  exact ⟨indexOf_eq_none_iff_wordOf, fun r => indexOf_eq_some_iff_wordOf,
    fun p hfits hlong => indexOf_eq_none.2 fun hmem => Nat.not_lt.2 (hfits t hmem) hlong⟩

/-- Settles O33: the word stands at `b`, so the look-up answers, and what it answers is at least `b`. -/
theorem duplicateEntriesLoseTheSmallerIndex : Obligations.DuplicateEntriesLoseTheSmallerIndex := by
  unfold Obligations.DuplicateEntriesLoseTheSmallerIndex
  intro vf a b hlen hab hb heq
  rw [← hlen] at hb ⊢
  cases hr : indexOf vf (wordOf vf a) with
  | none => exact absurd heq.symm (indexOf_eq_none_iff_wordOf.1 hr b hb)
  | some r =>
    obtain ⟨hlt, hword, hlast⟩ := indexOf_eq_some_iff_wordOf.1 hr
    exact ⟨r, rfl, hlast b hb heq.symm, hlt, hword⟩

/-- Every token is a maximal run of non-whitespace bytes (R120). -/
theorem isRun_of_mem_tokenize {ws text : List Byte} {tok : Token} (h : tok ∈ tokenize ws text) : IsRun ws text tok :=
  ((tokenizeFrom_spec ws text text 0 none rfl (Nat.zero_le _) (.inl rfl)).1 tok h).1

/-- Settles O34: the entry found is the token's bytes, and those are a non-empty run without whitespace. -/
theorem degenerateEntriesAreNeverDecoded : Obligations.DegenerateEntriesAreNeverDecoded := by
  unfold Obligations.DegenerateEntriesAreNeverDecoded
  intro vf ws text tok v htok hv
  have hrun : IsRun ws text tok := isRun_of_mem_tokenize htok
  obtain ⟨hbytes, hlen⟩ := hrun.mem_bytes
  obtain ⟨-, hword, -⟩ := indexOf_eq_some_iff_wordOf.1 hv
  rw [hword]
  exact ⟨List.ne_nil_of_length_pos (hlen ▸ hrun.pos), hbytes⟩

/-! The vocabulary along a step (R85). -/

/-- The engine's turn leaves the vocabulary, whether it completes an operation or does nothing. -/
theorem EngineEffect.sameVocabulary {s t : State} (e : EngineEffect s t) (hw : s.params.wordMax ≤ 31) :
    SameVocabulary s t := by
  rcases e.completion hw with rfl | c
  · exact ⟨rfl, rfl, rfl, rfl⟩
  · exact c.vocabulary

/-- Settles O35: neither the engine's turn nor a host transaction writes the vocabulary. -/
theorem vocabularyIsImmutableBetweenResets : Obligations.VocabularyIsImmutableBetweenResets := by
  unfold Obligations.VocabularyIsImmutableBetweenResets
  intro s t h hnr
  obtain ⟨⟨hw, -⟩, ⟨-, -, engine⟩ | ⟨-, -, _, host, -⟩ | ⟨hreset, -, -⟩⟩ := step_cases h
  · exact engine.sameVocabulary hw.2.1
  · exact host.sameVocabulary
  · exact absurd hreset hnr

end Sys2Proof.Machine

/-! PROOFS of family 41_checksum_sha256: R94, the legal sizes; R101, the checksum; R95, the parts of the padded message;
R98, the schedule by index instead of newest first; R100, the two digests. -/

namespace Sys2Proof.Machine

/-! Length arithmetic (R94) and the checksum (R101). -/

/-- Settles O50: the length functions evaluate on the sizes of each table. -/
theorem legalSizesFollowTheTable : Obligations.LegalSizesFollowTheTable := by
  unfold Obligations.LegalSizesFollowTheTable
  exact ⟨by decide, by decide⟩

/-- Settles O54: the middle part is the definition, at `cs` = `8 L / 32`. -/
theorem checksumIsTheTopOfTheDigest : Obligations.ChecksumIsTheTopOfTheDigest := by
  unfold Obligations.ChecksumIsTheTopOfTheDigest
  exact fun e he => ⟨sha256_length e, rfl, checksum_lt he⟩

/-! The padded message (R95). -/

theorem shaPad_take (msg : List Byte) : (shaPad msg).take msg.length = msg := List.take_left

/-- The byte after the message ends it. -/
theorem shaPad_getD_length (msg : List Byte) : (shaPad msg).getD msg.length 0 = 0x80 := by
  rw [shaPad, List.getD_append_right _ _ _ _ le_rfl, Nat.sub_self]
  rfl

theorem shaPad_getD_zero {msg : List Byte} {k : Nat} (hlo : msg.length < k) (hhi : k < 56) :
    (shaPad msg).getD k 0 = 0 := by
  obtain ⟨j, rfl⟩ := Nat.exists_eq_add_of_lt hlo
  have hj : j < 55 - msg.length := by omega
  rw [shaPad, List.getD_append_right _ _ _ _ (by omega), show msg.length + j + 1 - msg.length = j + 1 by omega,
    List.singleton_append, List.getD_cons_succ, List.getD_append _ _ _ _ (by rwa [List.length_replicate])]
  exact List.getD_replicate _ hj

/-- The last eight bytes of the block are the bit length. -/
theorem shaPad_drop {msg : List Byte} (h : msg.length ≤ 55) : (shaPad msg).drop 56 = toBytes (8 * msg.length) 8 := by
  rw [shaPad, ← List.append_assoc, ← List.append_assoc]
  exact List.drop_left' (by simp; omega)

/-! The schedule by index (R95, R98). -/

/-- Entry `k` of the schedule held newest first, `n` words beyond the sixteen of the message, is `W[n + 15 − k]`. -/
theorem scheduleFrom_getD {b : List Byte} {n t k : Nat} (hn : n ≤ 48) (h : t + k = n + 15) :
    (scheduleFrom n (messageWords b).reverse).getD k 0 = (messageSchedule b).getD t 0 := by
  have hdrop := scheduleFrom_drop n (48 - n) (messageWords b).reverse
  rw [Nat.add_sub_cancel' hn] at hdrop
  have ht : t < (scheduleFrom 48 (messageWords b).reverse).length := by simp; omega
  have hpos : (scheduleFrom 48 (messageWords b).reverse).length - 1 - t = 48 - n + k := by simp; omega
  rw [← hdrop, messageSchedule, List.getD_reverse t ht, hpos, List.getD_eq_getElem?_getD, List.getElem?_drop,
    ← List.getD_eq_getElem?_getD]

/-- The first sixteen words are the message words. -/
theorem messageSchedule_getD_of_lt {b : List Byte} {t : Nat} (ht : t < 16) :
    (messageSchedule b).getD t 0 = BitVec.ofNat 32 (be ((b.drop (4 * t)).take 4)) := by
  have hk : t + (15 - t) = 0 + 15 := by omega
  have hpos : (messageWords b).length - 1 - (15 - t) = t := by simp; omega
  rw [← scheduleFrom_getD (n := 0) (by omega) hk, scheduleFrom, List.getD_reverse _ (by simp; omega), hpos]
  simp [messageWords, ht]

/-- R98 in the model's own functions. -/
theorem messageSchedule_getD_add_sixteen (b : List Byte) {n : Nat} (hn : n < 48) :
    let w := fun t => (messageSchedule b).getD t 0
    w (n + 16) = w n + smallSigma0 (w (n + 1)) + w (n + 9) + smallSigma1 (w (n + 14)) := by
  intro w
  have entry (t k : Nat) (h : t + k = n + 15) : (scheduleFrom n (messageWords b).reverse).getD k 0 = w t :=
    scheduleFrom_getD hn.le h
  have newest := scheduleFrom_getD (b := b) (n := n + 1) (t := n + 16) (k := 0) hn rfl
  calc w (n + 16) = (scheduleFrom (n + 1) (messageWords b).reverse).getD 0 0 := newest.symm
    _ = scheduleNext (scheduleFrom n (messageWords b).reverse) := by rw [scheduleFrom, List.getD_cons_zero]
    _ = w n + smallSigma0 (w (n + 1)) + w (n + 9) + smallSigma1 (w (n + 14)) := by
        rw [scheduleNext, entry n 15 rfl, entry (n + 1) 14 rfl, entry (n + 9) 6 rfl, entry (n + 14) 1 rfl]

/-- Settles O51: the parts of the padded message, and the schedule's first sixteen words. -/
theorem paddedMessageIsOneBlock : Obligations.PaddedMessageIsOneBlock := by
  unfold Obligations.PaddedMessageIsOneBlock
  intro msg h
  refine ⟨shaPad_length h, shaPad_take msg, shaPad_getD_length msg, fun _ => shaPad_getD_zero, ?_,
    fun _ => messageSchedule_getD_of_lt⟩
  rw [shaPad_drop h]
  exact be_toBytes (by norm_num; omega)

/-- Settles O52: the recurrence at `t` = `n + 16`. -/
theorem scheduleFollowsTheRecurrence : Obligations.ScheduleFollowsTheRecurrence := by
  unfold Obligations.ScheduleFollowsTheRecurrence
  intro b t hlo hhi
  obtain ⟨n, rfl⟩ := Nat.exists_eq_add_of_le' hlo
  exact messageSchedule_getD_add_sixteen b (by omega)

/-! The digests (R100). -/

set_option maxRecDepth 10000 in
/-- Settles O53: both messages are closed terms, and the block's hash evaluates on them. -/
theorem digestsOfTheSpecComeOut : Obligations.DigestsOfTheSpecComeOut := by
  unfold Obligations.DigestsOfTheSpecComeOut
  exact ⟨by decide, by decide⟩

end Sys2Proof.Machine

/-! PROOFS of family 42_encode: R110, what the completion of ENCODE leaves alone; R111, what it answers; R112, the
groups as sums of bits; R113, the rolling accumulator; R114 (c), different entropies give different mnemonics. -/

namespace Sys2Proof.Machine

/-! The frame of the completion (R110). -/

/-- Every completion of ENCODE stores a mnemonic, the empty one on a failure, and reports. -/
theorem encodeComplete_effect {s : State} (h : s.op = 1) :
    (∃ f, encodeComplete s = reportFailure f (clearMnemonic s)) ∨
      ∃ g : List Nat, g.length ≤ 24 ∧ encodeComplete s = reportSuccess (storeMnemonic g s) := by
  unfold encodeComplete
  cases hout : encodeOutcome s with
  | error f => exact .inl ⟨f, raise_encode f h⟩
  | ok g => exact .inr ⟨g, encodeOutcome_ok_length_le hout, rfl⟩

/-- A byte outside the slot window reads as before the completion of ENCODE. -/
theorem encodeComplete_outside {s : State} (h : s.op = 1) (hw : s.params.wordMax ≤ 31) {x : Nat}
    (hx : ¬ (0x0100 ≤ x ∧ x < 0x0400)) : (encodeComplete s).mem.read x = s.mem.read x := by
  rcases encodeComplete_effect h with ⟨f, e⟩ | ⟨g, hg, e⟩ <;> rw [e]
  · rw [reportFailure_mem, clearMnemonic_mem, Memory.read_clear, if_neg (by unfold slotWindow mnCap; omega)]
  · exact storeMnemonic_outside hw hg hx

/-- The fields beside memory that the completion of ENCODE keeps and `Completion` does not list. -/
theorem encodeComplete_kept {s : State} (h : s.op = 1) : (encodeComplete s).eoutLen = s.eoutLen ∧
    (encodeComplete s).rdata = s.rdata ∧ (encodeComplete s).pending = s.pending := by
  rcases encodeComplete_effect h with ⟨f, e⟩ | ⟨g, -, e⟩ <;> rw [e] <;> exact ⟨rfl, rfl, rfl⟩

/-- `EOUT` stands below the slot window (R41). -/
theorem encodeComplete_sameEntropy {s : State} (h : s.op = 1) (hw : s.params.wordMax ≤ 31) :
    SameEntropy s (encodeComplete s) :=
  ⟨(encodeComplete_kept h).1, fun _ _ => encodeComplete_outside h hw (by unfold eoutBase; omega)⟩

/-- Settles O18: the frame lemmas of the completion, for failure and success together. -/
theorem encodeCompletionTouchesOnlyItsOutputs : Obligations.EncodeCompletionTouchesOnlyItsOutputs := by
  unfold Obligations.EncodeCompletionTouchesOnlyItsOutputs
  intro s _ hop hp
  have hw : s.params.wordMax ≤ 31 := hp.2.1
  have hc := encodeComplete_completion hw
  obtain ⟨-, hrdata, hpending⟩ := encodeComplete_kept hop
  exact ⟨_, complete_encode hop, hc.inputs, encodeComplete_sameEntropy hop hw, hc.vocabulary, hrdata, hpending,
    fun _ hx => encodeComplete_outside hop hw hx⟩

/-! The completion's answer (R111). -/

theorem encodeComplete_of_no_vocabulary {s : State} (h : s.vok = false) :
    encodeComplete s = raise { kind := .invalidVocabularySize, info := 0, off := 0, len := 0 } s := by
  rcases encodeComplete_cases s with ⟨-, e⟩ | ⟨hvok, -⟩ | ⟨hvok, -⟩
  · exact e
  · simp [h] at hvok
  · simp [h] at hvok

theorem encodeComplete_of_illegal_length {s : State} (h : s.vok = true) (hl : s.einLen.toNat ∉ entLens) :
    encodeComplete s =
      raise { kind := .invalidEntropyLength, info := 8 * s.einLen.toNat, off := 0, len := 0 } s := by
  rcases encodeComplete_cases s with ⟨hvok, -⟩ | ⟨-, -, e⟩ | ⟨-, hlegal, -⟩
  · simp [h] at hvok
  · exact e
  · exact absurd hlegal hl

theorem encodeComplete_of_legal {s : State} (h : s.vok = true) (hl : s.einLen.toNat ∈ entLens) :
    encodeComplete s = reportSuccess (storeMnemonic (entropyGroups s.entropyIn) s) := by
  rcases encodeComplete_cases s with ⟨hvok, -⟩ | ⟨-, hillegal, -⟩ | ⟨-, -, e⟩
  · simp [h] at hvok
  · exact absurd hl hillegal
  · exact e

/-- The indices of an entropy of `l` bytes in R111's own arithmetic. -/
theorem entropyGroups_of_length {e : List Byte} {l : Nat} (h : e.length = l) :
    entropyGroups e = groups (be e * 2 ^ (8 * l / 32) + ((sha256 e).getD 0 0).toNat >>> (8 - 8 * l / 32))
      ((8 * l + 8 * l / 32) / 11) := by
  subst h
  rfl

/-- What a slot of the mnemonic shows after a success: its index, its word's length and its word, with 0 behind. -/
theorem storeMnemonic_entry {s : State} (hm : s.mem.wf = true) (hw : s.params.wordMax ≤ 31)
    (hf : s.params.Fits s.vf) {g : List Nat} (hg : g.length ≤ 24) (hlt : ∀ x ∈ g, x < 2048) {i : Fin 24}
    (hi : i < g.length) :
    ((storeMnemonic g s).midx.get i).toNat = g.getD i 0 ∧
      ((storeMnemonic g s).mwLen.get i).toNat = (wordOf s.vf ((storeMnemonic g s).midx.get i).toNat).length ∧
      ∀ j, j < s.params.wordMax → (storeMnemonic g s).mem.read (slotBase i + 1 + j) =
        (wordOf s.vf ((storeMnemonic g s).midx.get i).toNat).getD j 0 := by
  rw [storeMnemonic_midx_toNat hlt hi]
  exact ⟨rfl, storeMnemonic_mwLen_toNat (fun v => (wordOf_length_le hf v).trans hw) hi,
    fun _ hj => storeMnemonic_slot hm hw hg hi hj⟩

/-- Settles O17: the three cases of the completion; a success stores the groups of `V`. -/
theorem encodeCompletionComputesTheMnemonic : Obligations.EncodeCompletionComputesTheMnemonic := by
  unfold Obligations.EncodeCompletionComputesTheMnemonic
  intro s _ hop
  rw [complete_encode hop]
  refine ⟨fun hvok => congrArg _ (encodeComplete_of_no_vocabulary hvok),
    fun hvok hl => congrArg _ (encodeComplete_of_illegal_length hvok hl), fun hvok hl h => ?_⟩
  intro e eb cs c n v
  have hw : s.params.wordMax ≤ 31 := h.params_wf.2.1
  have hgroups : entropyGroups s.entropyIn = groups v n := entropyGroups_of_length (entropyIn_length s)
  have hlen : (groups v n).length = n := groups_length v n
  have hn : n ≤ 24 := wordCount_le hl
  have hg : (groups v n).length ≤ 24 := hlen.trans_le hn
  have hdone : encodeComplete s = reportSuccess (storeMnemonic (groups v n) s) :=
    hgroups ▸ encodeComplete_of_legal hvok hl
  have hc := encodeComplete_completion hw
  have hout := encodeComplete_sameEntropy hop hw
  rw [hdone] at hc hout ⊢
  refine ⟨_, rfl, (storeMnemonic_mcount_toNat (s := s) hg).trans hlen, fun i hi => ?_, fun i hi => ?_,
    rfl, rfl, rfl, rfl, rfl, rfl, rfl, rfl, hc.inputs, hout, hc.vocabulary⟩
  · obtain ⟨hidx, hwordLen, hword⟩ := storeMnemonic_entry h.mem_wf hw (h.vocab_fits hvok) hg
      (fun _ => mem_groups_lt) (hi.trans_eq hlen.symm)
    exact ⟨hidx.trans (groups_getD v n i hi), hwordLen, hword⟩
  · have hi' : (groups v n).length ≤ i := hlen.trans_le hi
    exact ⟨storeMnemonic_midx_beyond (s := s) hi', storeMnemonic_mwLen_beyond (s := s) hi',
      fun _ hj => storeMnemonic_slot_beyond hw hi' i.isLt hj⟩

/-! The groups as sums of bits (R112). -/

/-- Group `i` of a bit string that fills its `n` groups: bit `10 − k` of the group is position `11 i + k`. -/
theorem group_eq_groupOfBits {e : List Byte} {cs c n i : Nat} (hc : c < 2 ^ cs) (hn : 8 * e.length + cs = 11 * n)
    (hi : i < n) : group (bitString e cs c) n i = groupOfBits e cs c i := by
  have hgroup : group (bitString e cs c) n i = (bitString e cs c >>> (11 * (n - 1 - i))) % 2 ^ 11 :=
    Nat.and_two_pow_sub_one_eq_mod _ 11
  rw [hgroup, ← sum_bits, groupOfBits]
  refine congrArg List.sum (List.map_congr_left fun k hk => ?_)
  have hk11 : k < 11 := List.mem_range.1 hk
  rw [mnemonicBit_eq hc (by omega), Nat.testBit_shiftRight,
    show 8 * e.length + cs - 1 - (11 * i + k) = 11 * (n - 1 - i) + (11 - 1 - k) by omega]

/-- The groups of a legal entropy are its sums of bits. -/
theorem group_entropy_eq_groupOfBits {e : List Byte} {i : Nat} (h : e.length ∈ entLens)
    (hi : i < wordCount (entropyBits e.length)) :
    group (bitString e (checksumBits (entropyBits e.length)) (checksum e)) (wordCount (entropyBits e.length)) i =
      groupOfBits e (checksumBits (entropyBits e.length)) (checksum e) i :=
  group_eq_groupOfBits (checksum_lt h) (wordCount_mul h) hi

/-- Settles O19: the two forms of a group are equal, and `MIDX` of a success holds the groups. -/
theorem groupsAreTheBitsOfTheConcatenation : Obligations.GroupsAreTheBitsOfTheConcatenation := by
  unfold Obligations.GroupsAreTheBitsOfTheConcatenation
  refine ⟨fun e i he hi => group_entropy_eq_groupOfBits he hi, fun s t _ hop hvok hl hstep i hi => ?_⟩
  rw [complete_encode hop, encodeComplete_of_legal hvok hl] at hstep
  cases hstep
  rw [← entropyIn_length] at hl hi ⊢
  rw [reportSuccess_midx, storeMnemonic_midx_toNat (fun _ => mem_entropyGroups_lt)
    (hi.trans_eq (entropyGroups_length _).symm)]
  exact (groups_getD _ _ _ hi).trans (group_entropy_eq_groupOfBits hl hi)

/-! The rolling accumulator (R113). -/

/-- Before the first byte the accumulator holds the checksum, and nothing is out. -/
theorem encodeAcc_seed {c cs : Nat} (h : c < 2 ^ cs) : EncodeAcc c cs (c, cs, []) where
  value := by simp
  bits := rfl
  acc_lt := h
  out_lt := fun _ hg => absurd hg List.not_mem_nil

/-- A byte fed above the bits held is the byte above the `t` bits of the value. -/
theorem EncodeAcc.feed {v t acc nb : Nat} {out : List Nat} (h : EncodeAcc v t (acc, nb, out)) (b : Byte) :
    EncodeAcc (v + b.toNat * 2 ^ t) (t + 8) (acc ||| (b.toNat <<< nb), nb + 8, out) := by
  obtain ⟨hvalue, hbits, hacc, hout⟩ := h
  dsimp only at hvalue hbits hacc hout
  obtain ⟨heq, hlt⟩ := feed_lt b hacc
  refine ⟨?_, by dsimp only; omega, hlt, hout⟩
  have hpow : 2 ^ t = 2 ^ nb * 2048 ^ out.length := by
    rw [← hbits, pow_add, pow_mul]
    norm_num
  dsimp only
  rw [heq, ← hvalue, hpow]
  ring

/-- The bytes fed last to first stand above the `t` bits held before, and fewer than 11 bits stay behind. -/
theorem encodeAccumulate_spec {v t acc nb : Nat} {out : List Nat} (bs : List Byte)
    (h : EncodeAcc v t (acc, nb, out)) (hnb : nb < 11) :
    EncodeAcc (v + be bs.reverse * 2 ^ t) (t + 8 * bs.length) (encodeAccumulate bs acc nb out) ∧
      (encodeAccumulate bs acc nb out).2.1 < 11 := by
  induction bs generalizing v t acc nb out with
  | nil => exact ⟨by simpa [encodeAccumulate] using h, hnb⟩
  | cons b bs ih =>
    obtain ⟨hextract, hless⟩ := extractGroups_spec (nb + 8) _ _ out (h.feed b) le_rfl
    have hvalue : v + be (b :: bs).reverse * 2 ^ t = v + b.toNat * 2 ^ t + be bs.reverse * 2 ^ (t + 8) := by
      rw [List.reverse_cons, be_append, be_cons, be_nil, pow_add]
      simp
      ring
    rw [hvalue, show t + 8 * (b :: bs).length = t + 8 + 8 * bs.length by rw [List.length_cons]; omega]
    exact ih hextract hless

/-- The checksum of a legal entropy has fewer than 11 bits. -/
theorem checksumBits_lt {l : Nat} (h : l ∈ entLens) : checksumBits (entropyBits l) < 11 := by
  rw [mem_entLens] at h
  unfold checksumBits entropyBits
  omega

/-- The accumulator of a legal entropy after the bytes `fed`. -/
theorem encodeAccumulate_seeded {e : List Byte} (h : e.length ∈ entLens) (fed : List Byte) :
    let r := encodeAccumulate fed (checksum e) (checksumBits (entropyBits e.length)) []
    EncodeAcc (checksum e + be fed.reverse * 2 ^ checksumBits (entropyBits e.length))
      (checksumBits (entropyBits e.length) + 8 * fed.length) r ∧ r.2.1 < 11 :=
  encodeAccumulate_spec fed (encodeAcc_seed (checksum_lt h)) (checksumBits_lt h)

/-- An accumulator that was fed exactly `11 n` bits and keeps fewer than 11 is empty, and its groups are out. -/
theorem EncodeAcc.finished {v n : Nat} {r : Nat × Nat × List Nat} (h : EncodeAcc v (11 * n) r) (hnb : r.2.1 < 11) :
    r.1 = 0 ∧ r.2.1 = 0 ∧ r.2.2.reverse = groups v n := by
  obtain ⟨hvalue, hbits, hacc, hout⟩ := h
  have hnb0 : r.2.1 = 0 := by omega
  have hacc0 : r.1 = 0 := by rw [hnb0] at hacc; omega
  have hlen : r.2.2.reverse.length = n := by rw [List.length_reverse]; omega
  have hpack : packIndices r.2.2.reverse = v := by rw [← hvalue, hacc0]; omega
  refine ⟨hacc0, hnb0, ?_⟩
  rw [← hpack, ← hlen, groups_packIndices fun g hg => hout g (List.mem_reverse.1 hg)]

/-- The whole bit string has been fed at the end. -/
theorem encodeDatapath_spec {e : List Byte} (h : e.length ∈ entLens) :
    (encodeDatapath e).1 = 0 ∧ (encodeDatapath e).2.1 = 0 ∧ (encodeDatapath e).2.2.reverse = entropyGroups e := by
  obtain ⟨hacc, hnb⟩ := encodeAccumulate_seeded h e.reverse
  rw [List.reverse_reverse, List.length_reverse, Nat.add_comm (checksum e), Nat.add_comm _ (8 * e.length),
    wordCount_mul h] at hacc
  exact hacc.finished hnb

/-- Settles O20: the accumulator's invariant at the end, and before each byte. -/
theorem encodeAccumulatorEqualsThePartition : Obligations.EncodeAccumulatorEqualsThePartition := by
  unfold Obligations.EncodeAccumulatorEqualsThePartition
  intro e he
  obtain ⟨hacc, hnb, hout⟩ := encodeDatapath_spec he
  refine ⟨hacc, hnb, hout, fun fed b _ _ => ?_⟩
  obtain ⟨hfed, hless⟩ := encodeAccumulate_seeded he fed
  exact ⟨by omega, (feed_lt b hfed.acc_lt).2⟩

/-! Different entropies (R114 (c)). -/

/-- The indices of a legal entropy determine it: the reassembly gives it back. -/
theorem entropyGroups_injective {e e' : List Byte} (he : e.length ∈ entLens) (he' : e'.length ∈ entLens)
    (h : entropyGroups e = entropyGroups e') : e = e' := by
  rw [← reassemble_entropyGroups he, h, reassemble_entropyGroups he']

/-- With distinct entries the position of a word gives its index back. -/
theorem map_idxOf_map_wordOf {vf : List VWord} (h : vf.Nodup) {g : List Nat} (hg : ∀ v ∈ g, v < vf.length) :
    (g.map (wordOf vf)).map (vf.idxOf ·) = g := by
  rw [List.map_map]
  refine (List.map_congr_left (g := id) fun v hv => ?_).trans (List.map_id g)
  have hword : wordOf vf v = vf[v]'(hg v hv) := List.getD_eq_getElem ..
  rw [Function.comp, hword]
  exact h.idxOf_getElem v (hg v hv)

/-- Settles O21: words determine indices, and indices determine the entropy. -/
theorem differentEntropiesGiveDifferentMnemonics : Obligations.DifferentEntropiesGiveDifferentMnemonics := by
  unfold Obligations.DifferentEntropiesGiveDifferentMnemonics
  intro e e' he hlen hne
  have he' : e'.length ∈ entLens := by rw [hlen]; exact he
  have hgroups : entropyGroups e ≠ entropyGroups e' := fun h => hne (entropyGroups_injective he he' h)
  refine ⟨hgroups, fun vf hvf hnodup hwords => hgroups ?_⟩
  have index (d : List Byte) : ((entropyGroups d).map (wordOf vf)).map (vf.idxOf ·) = entropyGroups d :=
    map_idxOf_map_wordOf hnodup fun _ hv => (mem_entropyGroups_lt hv).trans_eq hvf.symm
  rw [← index e, hwords, index e']

end Sys2Proof.Machine

/-! PROOFS of family 43_decode: R120, the tokens of a text; R125, what the completion of DECODE leaves alone and what
it answers; R123, the reassembly; R126, the rolling accumulator; R127, corrupted checksum bits and the round trip. -/

namespace Sys2Proof.Machine

/-! The tokens of a text (R120). -/

/-- Non-empty tokens in order and apart, from offset `lo` of a text of `n` bytes on: a token takes at least one byte,
and all but the last one more behind it. -/
theorem two_mul_length_le_of_separated {n : Nat} {toks : List Token} {lo : Nat}
    (hin : ∀ t ∈ toks, 0 < t.len ∧ lo ≤ t.off ∧ t.off + t.len ≤ n)
    (hsep : toks.Pairwise fun a b => a.off + a.len < b.off) : 2 * toks.length ≤ n + 1 - lo := by
  induction toks generalizing lo with
  | nil => simp
  | cons t ts ih =>
    obtain ⟨hafter, hsep⟩ := List.pairwise_cons.1 hsep
    obtain ⟨hpos, hlo, hn⟩ := hin t List.mem_cons_self
    have hrest : 2 * ts.length ≤ n + 1 - (lo + 2) := ih (fun u hu => by
      obtain ⟨hupos, -, hun⟩ := hin u (List.mem_cons_of_mem _ hu)
      have := hafter u hu
      exact ⟨hupos, by omega, hun⟩) hsep
    rw [List.length_cons]
    omega

/-- Settles O22: the scan of the whole text, from offset 0 outside a token. -/
theorem tokensAreTheMaximalRuns : Obligations.TokensAreTheMaximalRuns := by
  unfold Obligations.TokensAreTheMaximalRuns
  intro ws text
  obtain ⟨-, hcover, hsep⟩ := tokenizeFrom_spec ws text text 0 none rfl (Nat.zero_le _) (.inl rfl)
  have hrun (t : Token) (ht : t ∈ tokenize ws text) : IsRun ws text t := isRun_of_mem_tokenize ht
  refine ⟨fun t ht => ?_, fun k hk hw => hcover k (Nat.zero_le k) hk hw, hsep, ?_⟩
  · have h := hrun t ht
    obtain ⟨hbytes, hlen⟩ := h.mem_bytes
    exact ⟨h.pos, h.inside, hbytes, hlen, h.left, h.right⟩
  · have hle := two_mul_length_le_of_separated (lo := 0)
      (fun t ht => ⟨(hrun t ht).pos, Nat.zero_le _, (hrun t ht).inside⟩) hsep
    have hle' : 2 * (tokenize ws text).length ≤ text.length + 1 := hle
    omega

/-! The frame of the completion (R125, R152). -/

/-- Every completion of DECODE stores an entropy, the empty one on a failure, and reports. -/
theorem decodeComplete_effect {s : State} (h : s.op = 2) :
    (∃ f, decodeComplete s = reportFailure f (clearEntropy s)) ∨
      ∃ e : List Byte, e.length ≤ 32 ∧ decodeComplete s = reportSuccess (storeEntropy e s) := by
  rcases decodeComplete_cases s with ⟨-, e⟩ | ⟨-, -, e⟩ | ⟨-, -, -, e⟩ | ⟨-, -, -, f, -, e⟩ |
    ⟨-, -, hcount, idx, hidx, ⟨-, e⟩ | ⟨-, e⟩⟩ <;> rw [e]
  case inr.inr.inr.inr.inr =>
    rw [← lookUpTokens_length hidx] at hcount
    exact .inr ⟨_, reassemble_le hcount, rfl⟩
  all_goals exact .inl ⟨_, raise_decode _ h⟩

/-- A byte outside `EOUT` reads as before the completion of DECODE. -/
theorem decodeComplete_outside {s : State} (h : s.op = 2) {x : Nat} (hx : ¬ (0x0040 ≤ x ∧ x < 0x0060)) :
    (decodeComplete s).mem.read x = s.mem.read x := by
  rcases decodeComplete_effect h with ⟨f, e⟩ | ⟨d, hd, e⟩ <;> rw [e]
  · rw [reportFailure_mem, clearEntropy_mem, Memory.read_clear, if_neg (by unfold eoutBase entCap; omega)]
  · exact storeEntropy_outside hd hx

/-- The fields beside memory that the completion of DECODE keeps and `Completion` does not list. -/
theorem decodeComplete_kept {s : State} (h : s.op = 2) : (decodeComplete s).mcount = s.mcount ∧
    (decodeComplete s).midx = s.midx ∧ (decodeComplete s).mwLen = s.mwLen ∧
    (decodeComplete s).rdata = s.rdata ∧ (decodeComplete s).pending = s.pending := by
  rcases decodeComplete_effect h with ⟨f, e⟩ | ⟨d, -, e⟩ <;> rw [e] <;> exact ⟨rfl, rfl, rfl, rfl, rfl⟩

/-- The word slots stand above `EOUT` (R41). -/
theorem decodeComplete_sameMnemonic {s : State} (h : s.op = 2) : SameMnemonic s (decodeComplete s) := by
  obtain ⟨hcount, hidx, hlen, -, -⟩ := decodeComplete_kept h
  exact ⟨hcount, hidx, hlen, fun _ _ _ _ => decodeComplete_outside h (by unfold slotBase slotWindow; omega)⟩

/-- Settles O24: the frame lemmas of the completion, for failure and success together. -/
theorem decodeCompletionTouchesOnlyItsOutputs : Obligations.DecodeCompletionTouchesOnlyItsOutputs := by
  unfold Obligations.DecodeCompletionTouchesOnlyItsOutputs
  intro s _ hop
  have hc := decodeComplete_completion s
  obtain ⟨-, -, -, hrdata, hpending⟩ := decodeComplete_kept hop
  exact ⟨_, complete_decode hop, hc.inputs, decodeComplete_sameMnemonic hop, hc.vocabulary, hrdata, hpending,
    fun _ hx => decodeComplete_outside hop hx⟩

/-! What the completion computes (R121 to R125): `decodeOutcome`, check by check, then how an outcome is recorded. -/

theorem decodeOutcome_of_no_vocabulary {s : State} (h : s.vok = false) :
    decodeOutcome s = .error { kind := .invalidVocabularySize, info := 0, off := 0, len := 0 } := if_pos h

theorem decodeOutcome_of_long_text {s : State} (h : s.vok = true) (hl : s.params.txtCap < s.txtLen.toNat) :
    decodeOutcome s = .error { kind := .textTooLong, info := 0, off := 0, len := 0 } := by
  rw [decodeOutcome, if_neg (by simp [h]), if_pos hl]

theorem decodeOutcome_of_illegal_count {s : State} (h : s.vok = true) (hl : s.txtLen.toNat ≤ s.params.txtCap)
    (hn : (tokenize s.params.ws s.text).length ∉ wordCounts) : decodeOutcome s = .error
      { kind := .invalidWordCount, info := (tokenize s.params.ws s.text).length, off := 0, len := 0 } := by
  rw [decodeOutcome, if_neg (by simp [h]), if_neg hl.not_gt]
  exact if_pos hn

theorem decodeOutcome_of_unknown_word {s : State} (h : s.vok = true) (hl : s.txtLen.toNat ≤ s.params.txtCap)
    (hn : (tokenize s.params.ws s.text).length ∈ wordCounts) {f : Failure}
    (hlook : lookUpTokens s.vf s.text 0 (tokenize s.params.ws s.text) = .error f) : decodeOutcome s = .error f := by
  rw [decodeOutcome, if_neg (by simp [h]), if_neg hl.not_gt]
  simp only [if_neg (not_not.2 hn), hlook]

theorem decodeOutcome_of_known_words {s : State} (h : s.vok = true) (hl : s.txtLen.toNat ≤ s.params.txtCap)
    (hn : (tokenize s.params.ws s.text).length ∈ wordCounts) {idx : List Nat}
    (hlook : lookUpTokens s.vf s.text 0 (tokenize s.params.ws s.text) = .ok idx) :
    decodeOutcome s = verifyIndices idx := by
  rw [decodeOutcome, if_neg (by simp [h]), if_neg hl.not_gt]
  simp only [if_neg (not_not.2 hn), hlook]

theorem complete_of_decode_error {s : State} (h : s.op = 2) {f : Failure} (hout : decodeOutcome s = .error f) :
    complete s = .next (raise f s) := by
  rw [complete_decode h, decodeComplete, hout]

theorem complete_of_decode_ok {s : State} (h : s.op = 2) {e : List Byte} (hout : decodeOutcome s = .ok e) :
    complete s = .next (reportSuccess (storeEntropy e s)) := by
  rw [complete_decode h, decodeComplete, hout]

theorem verifyIndices_of_mismatch {idx : List Nat} (h : checksum (reassemble idx) ≠ embeddedChecksum idx) :
    verifyIndices idx = .error { kind := .checksumMismatch, info := 0, off := 0, len := 0 } := if_neg h

theorem verifyIndices_of_match {idx : List Nat} (h : checksum (reassemble idx) = embeddedChecksum idx) :
    verifyIndices idx = .ok (reassemble idx) := if_pos h

/-- The checksum of a reassembled entropy has the `cs` bits of R123. -/
theorem checksum_reassemble (idx : List Nat) : checksum (reassemble idx) =
    ((sha256 (reassemble idx)).getD 0 0).toNat >>> (8 - messageLengthForWordCount idx.length / 32) := by
  have hcs : checksumBits (entropyBits (reassemble idx).length) = messageLengthForWordCount idx.length / 32 := by
    rw [reassemble_length]
    unfold checksumBits entropyBits messageLengthForWordCount
    omega
  rw [← hcs]
  rfl

/-- Settles O23: the three failures before the look-up, its failure, and the verification of what it found. -/
theorem decodeCompletionComputesTheEntropy : Obligations.DecodeCompletionComputesTheEntropy := by
  unfold Obligations.DecodeCompletionComputesTheEntropy
  intro s _ hop text toks n
  refine ⟨fun hvok => complete_of_decode_error hop (decodeOutcome_of_no_vocabulary hvok),
    fun hvok hl => complete_of_decode_error hop (decodeOutcome_of_long_text hvok hl),
    fun hvok hl hn => complete_of_decode_error hop (decodeOutcome_of_illegal_count hvok hl hn),
    fun hvok hl hn i tok htok hmiss hbefore => ?_, fun hvok hl hn idx hidx => ?_⟩
  · have hfail : lookUpTokens s.vf text 0 toks =
        .error { kind := .unknownWord, info := i, off := tok.off, len := tok.len } :=
      lookUpTokens_error.2 ⟨i, tok, htok, hmiss, hbefore, by rw [Nat.zero_add]⟩
    exact complete_of_decode_error hop (decodeOutcome_of_unknown_word hvok hl hn hfail)
  · have hlook : lookUpTokens s.vf text 0 toks = .ok idx := lookUpTokens_ok.2 hidx
    have hout : decodeOutcome s = verifyIndices idx := decodeOutcome_of_known_words hvok hl hn hlook
    have hlen : idx.length = n := lookUpTokens_length hlook
    intro eb cs vd e emb
    have he : reassemble idx = e := by rw [reassemble, hlen]; rfl
    have hemb : embeddedChecksum idx = emb := by rw [embeddedChecksum, hlen]; rfl
    have hsum : checksum (reassemble idx) = ((sha256 e).getD 0 0).toNat >>> (8 - cs) := by
      rw [checksum_reassemble, hlen, he]; rfl
    rw [← hsum, ← hemb]
    refine ⟨fun hne => complete_of_decode_error hop (hout.trans (verifyIndices_of_mismatch hne)), fun heq hm => ?_⟩
    have hstored := complete_of_decode_ok hop (hout.trans (verifyIndices_of_match heq))
    have hbytes : (reassemble idx).length = eb / 8 := (reassemble_length idx).trans (by rw [hlen]; rfl)
    have h32 : (reassemble idx).length ≤ 32 := reassemble_le (hlen ▸ hn)
    have hc := decodeComplete_completion s
    have hwords := decodeComplete_sameMnemonic hop
    rw [Host.Outcome.next.inj ((complete_decode hop).symm.trans hstored)] at hc hwords
    exact ⟨_, hstored, (storeEntropy_eoutLen_toNat (s := s) h32).trans hbytes,
      fun k hk => he ▸ storeEntropy_in hm (hbytes ▸ hk), fun k hk hk32 => storeEntropy_beyond (hbytes ▸ hk) hk32,
      rfl, rfl, rfl, rfl, rfl, rfl, rfl, rfl, hc.inputs, hwords, hc.vocabulary⟩

/-! The reassembly (R123). -/

/-- `Vd` as the sum of R123, the first index the most significant. -/
theorem packIndices_eq_sum (idx : List Nat) : packIndices idx =
    ((List.range idx.length).map fun i => idx.getD i 0 * 2 ^ (11 * (idx.length - 1 - i))).sum := by
  induction idx with
  | nil => rfl
  | cons j idx ih =>
    rw [List.length_cons, List.range_succ_eq_map, List.map_cons, List.sum_cons, List.map_map, packIndices, ih]
    refine congrArg₂ (· + ·) rfl (congrArg List.sum (List.map_congr_left fun i _ => ?_))
    rw [Function.comp, List.getD_cons_succ, show idx.length + 1 - 1 - (i + 1) = idx.length - 1 - i by omega]

/-- The bits of a legal word count are those of the entropy's bytes and at most 8 of the checksum (R93, R94). -/
theorem messageLength_split {n : Nat} (h : n ∈ wordCounts) :
    8 * (messageLengthForWordCount n / 8) + messageLengthForWordCount n / 32 = 11 * n ∧
      messageLengthForWordCount n / 32 ≤ 8 := by
  rw [mem_wordCounts] at h
  unfold messageLengthForWordCount
  omega

/-- The embedded checksum is `Vd` modulo `2^cs`. -/
theorem embeddedChecksum_eq_mod (idx : List Nat) :
    embeddedChecksum idx = packIndices idx % 2 ^ (messageLengthForWordCount idx.length / 32) :=
  Nat.and_two_pow_sub_one_eq_mod ..

/-- The value of the reassembled bytes is `Vd` divided by `2^cs`: nothing is cut off. -/
theorem be_reassemble {idx : List Nat} (h : idx.length ∈ wordCounts) (hlt : ∀ i ∈ idx, i < 2048) :
    be (reassemble idx) = packIndices idx / 2 ^ (messageLengthForWordCount idx.length / 32) := by
  have hsplit := (messageLength_split h).1
  rw [reassemble, Nat.shiftRight_eq_div_pow]
  refine be_toBytes (Nat.div_lt_of_lt_mul ((packIndices_lt hlt).trans_eq ?_))
  calc 2048 ^ idx.length = 2 ^ (11 * idx.length) := by rw [pow_mul]; norm_num
    _ = _ := by rw [← hsplit, Nat.add_comm, pow_add, pow_mul 2 8]; norm_num

/-- The last index ends with all the checksum's bits. -/
theorem packIndices_append_singleton {cs : Nat} (hcs : cs ≤ 8) (idx : List Nat) (last : Nat) :
    packIndices (idx ++ [last]) = 2 ^ cs * (2 ^ (11 - cs) * packIndices idx) + last := by
  rw [packIndices_append, packIndices_cons, ← Nat.mul_assoc, ← pow_add, show cs + (11 - cs) = 11 by omega]
  simp [Nat.mul_comm]

/-- The embedded checksum stands in the last index. -/
theorem embeddedChecksum_append_singleton {idx : List Nat} {last : Nat} (h : (idx ++ [last]).length ∈ wordCounts) :
    embeddedChecksum (idx ++ [last]) = last % 2 ^ (messageLengthForWordCount (idx ++ [last]).length / 32) := by
  rw [embeddedChecksum_eq_mod, packIndices_append_singleton (messageLength_split h).2, Nat.mul_add_mod]

/-- The entropy does not depend on the checksum's bits of the last index. -/
theorem reassemble_append_singleton_congr {idx : List Nat} {g g' : Nat} (h : (idx ++ [g]).length ∈ wordCounts)
    (heq : g / 2 ^ (messageLengthForWordCount (idx ++ [g]).length / 32) =
      g' / 2 ^ (messageLengthForWordCount (idx ++ [g]).length / 32)) :
    reassemble (idx ++ [g]) = reassemble (idx ++ [g']) := by
  have hlen : (idx ++ [g']).length = (idx ++ [g]).length := by simp
  have hcs := (messageLength_split h).2
  rw [reassemble, reassemble, hlen, Nat.shiftRight_eq_div_pow, Nat.shiftRight_eq_div_pow,
    packIndices_append_singleton hcs, packIndices_append_singleton hcs, Nat.mul_add_div (by positivity),
    Nat.mul_add_div (by positivity), heq]

/-- `cs` of R123 in the statements' arithmetic. -/
theorem messageLength_div (n : Nat) : messageLengthForWordCount n / 32 = n * 11 / 32 :=
  Nat.mul_div_cancel _ (by decide)

/-- Settles O25: `Vd` by induction on the indices, its parts by their definitions and laws. -/
theorem reassemblyInvertsThePartition : Obligations.ReassemblyInvertsThePartition := by
  unfold Obligations.ReassemblyInvertsThePartition
  refine ⟨packIndices_eq_sum, fun _ => rfl, fun _ => rfl, fun idx last h => ?_,
    fun e he => ⟨reassemble_entropyGroups he, embeddedChecksum_entropyGroups he⟩, fun idx h hlt => ?_⟩
  · rw [embeddedChecksum_append_singleton h, Nat.and_two_pow_sub_one_eq_mod, List.length_append]
    rfl
  · rw [be_reassemble h hlt, Nat.shiftRight_eq_div_pow]
    rfl

/-! The rolling accumulator (R126). -/

/-- Before the first index nothing is held and nothing is out. -/
theorem decodeAcc_seed (nbytes : Nat) : DecodeAcc nbytes 0 0 (0, 0, []) where
  value := rfl
  bits := rfl
  acc_lt := Nat.one_pos
  out_le := Nat.zero_le _

/-- An index fed below the bits held. -/
theorem DecodeAcc.feed {nbytes v t acc nb : Nat} {out : List Byte} (h : DecodeAcc nbytes v t (acc, nb, out)) {i : Nat}
    (hi : i < 2048) : DecodeAcc nbytes (v * 2048 + i) (t + 11) ((acc <<< 11) ||| i, nb + 11, out) := by
  obtain ⟨hvalue, hbits, hacc, hout⟩ := h
  dsimp only at hvalue hbits hacc hout
  have heq : (acc <<< 11) ||| i = acc * 2048 + i := by
    rw [← Nat.shiftLeft_add_eq_or_of_lt (show i < 2 ^ 11 from hi), Nat.shiftLeft_eq]
  have hpow : 2 ^ (nb + 11) = 2 ^ nb * 2048 := pow_add 2 nb 11
  refine ⟨?_, by dsimp only; omega, by dsimp only; omega, hout⟩
  dsimp only
  rw [heq, hpow, ← hvalue]
  ring

/-- The indices fed are appended to the value, and fewer than 8 bits stay behind while bytes are still to come. -/
theorem decodeAccumulate_spec {nbytes v t acc nb : Nat} {out : List Byte} (fed : List Nat) (hlt : ∀ i ∈ fed, i < 2048)
    (h : DecodeAcc nbytes v t (acc, nb, out)) (hnb : nb < 8 ∨ out.length = nbytes) :
    let r := decodeAccumulate nbytes fed acc nb out
    DecodeAcc nbytes (v * 2048 ^ fed.length + packIndices fed) (t + 11 * fed.length) r ∧
      (r.2.1 < 8 ∨ r.2.2.length = nbytes) := by
  induction fed generalizing v t acc nb out with
  | nil => exact ⟨by simpa [decodeAccumulate] using h, hnb⟩
  | cons i fed ih =>
    obtain ⟨hextract, hless⟩ := extractBytes_spec (nb + 11) _ _ out (h.feed (hlt i List.mem_cons_self)) le_rfl
    have hvalue : v * 2048 ^ (i :: fed).length + packIndices (i :: fed) =
        (v * 2048 + i) * 2048 ^ fed.length + packIndices fed := by
      rw [packIndices_cons, List.length_cons, pow_succ]
      ring
    rw [hvalue, show t + 11 * (i :: fed).length = t + 11 + 11 * fed.length by rw [List.length_cons]; omega]
    exact ih (fun j hj => hlt j (List.mem_cons_of_mem _ hj)) hextract hless

/-- The accumulator after the indices `fed`, from the start. -/
theorem decodeAccumulate_seeded (nbytes : Nat) (fed : List Nat) (hlt : ∀ i ∈ fed, i < 2048) :
    let r := decodeAccumulate nbytes fed 0 0 []
    DecodeAcc nbytes (packIndices fed) (11 * fed.length) r ∧ (r.2.1 < 8 ∨ r.2.2.length = nbytes) := by
  have h := decodeAccumulate_spec fed hlt (decodeAcc_seed nbytes) (.inl (by decide))
  simpa only [Nat.zero_mul, Nat.zero_add] using h

/-- At the end the entropy's bytes are out and the embedded checksum is held. -/
theorem decodeDatapath_spec {idx : List Nat} (h : idx.length ∈ wordCounts) (hlt : ∀ i ∈ idx, i < 2048) :
    (decodeDatapath idx).1 = embeddedChecksum idx ∧
      (decodeDatapath idx).2.1 = messageLengthForWordCount idx.length / 32 ∧
      (decodeDatapath idx).2.2 = reassemble idx := by
  have hend : DecodeAcc (messageLengthForWordCount idx.length / 8) (packIndices idx) (11 * idx.length)
      (decodeDatapath idx) ∧ ((decodeDatapath idx).2.1 < 8 ∨
        (decodeDatapath idx).2.2.length = messageLengthForWordCount idx.length / 8) :=
    decodeAccumulate_seeded _ idx hlt
  obtain ⟨⟨hvalue, hbits, hacc, hout⟩, hless⟩ := hend
  obtain ⟨hsplit, hcs⟩ := messageLength_split h
  have hlen : (decodeDatapath idx).2.2.length = messageLengthForWordCount idx.length / 8 := by omega
  have hnb : (decodeDatapath idx).2.1 = messageLengthForWordCount idx.length / 32 := by omega
  rw [hnb] at hvalue hacc
  refine ⟨?_, hnb, be_injective (hlen.trans (reassemble_length idx).symm) ?_⟩
  · rw [embeddedChecksum_eq_mod, ← hvalue, Nat.mul_add_mod', Nat.mod_eq_of_lt hacc]
  · rw [be_reassemble h hlt, ← hvalue, Nat.mul_comm, Nat.mul_add_div (by positivity),
      Nat.div_eq_of_lt hacc, Nat.add_zero]

/-- Settles O26: the accumulator's invariant at the end, and before each index. -/
theorem decodeAccumulatorEqualsTheReassembly : Obligations.DecodeAccumulatorEqualsTheReassembly := by
  unfold Obligations.DecodeAccumulatorEqualsTheReassembly
  intro idx h hlt
  obtain ⟨hacc, hnb, hout⟩ := decodeDatapath_spec h hlt
  refine ⟨hacc, hnb, hout, fun fed i left hidx => ?_⟩
  have hfed : ∀ j ∈ fed ++ i :: left, j < 2048 := hidx ▸ hlt
  obtain ⟨hheld, hless⟩ := decodeAccumulate_seeded (messageLengthForWordCount idx.length / 8) fed
    fun j hj => hfed j (List.mem_append_left _ hj)
  have hi : i < 2048 := hfed i (List.mem_append_right _ List.mem_cons_self)
  refine ⟨?_, (hheld.feed hi).acc_lt⟩
  obtain ⟨hsplit, hcs⟩ := messageLength_split h
  have hbits := hheld.bits
  have hlen : idx.length = fed.length + (left.length + 1) := by rw [hidx]; simp
  omega

/-! Corrupted checksum bits (R127 (b)). -/

theorem checksum_of_verifyIndices_ok {idx : List Nat} {e : List Byte} (h : verifyIndices idx = .ok e) :
    checksum (reassemble idx) = embeddedChecksum idx := by
  by_contra hne
  rw [verifyIndices_of_mismatch hne] at h
  cases h

/-- Settles O27: the entropy and its checksum stay, and the embedded checksum does not. -/
theorem corruptedChecksumBitsFail : Obligations.CorruptedChecksumBitsFail := by
  unfold Obligations.CorruptedChecksumBitsFail
  intro idx g g' e _ _ _ h heq hne hok
  have hlen : (idx ++ [g']).length = (idx ++ [g]).length := by simp
  have hcs : (idx.length + 1) * 11 / 32 = messageLengthForWordCount (idx ++ [g]).length / 32 := by
    rw [messageLength_div, List.length_append, List.length_singleton]
  rw [hcs] at heq
  have hlow : g % 2 ^ (messageLengthForWordCount (idx ++ [g]).length / 32) ≠
      g' % 2 ^ (messageLengthForWordCount (idx ++ [g]).length / 32) := fun hmod =>
    hne (by rw [← Nat.div_add_mod g, heq, hmod, Nat.div_add_mod])
  apply verifyIndices_of_mismatch
  rw [← reassemble_append_singleton_congr h heq, checksum_of_verifyIndices_ok hok, embeddedChecksum_append_singleton h,
    embeddedChecksum_append_singleton (hlen ▸ h), hlen]
  exact hlow

/-! The round trip (R127 (a)): the tokens of a text of separated words are the words, the look-up of each is its index,
and the groups of the entropy verify. -/

/-- The first separator of a text: empty only behind the last word. -/
theorem separators_cons {ws sep : List Byte} {seps : List (List Byte)} (h : Separators ws (sep :: seps)) :
    (sep ≠ [] ∨ seps = []) ∧ (∀ b ∈ sep, b ∈ ws) ∧ Separators ws seps := by
  cases seps with
  | nil => exact ⟨.inr rfl, h, trivial⟩
  | cons next rest => exact ⟨.inl h.1, h.2⟩

/-- A separator, or the end of the text, closes the token being read. -/
theorem tokenizeFrom_some_close {ws sep rest : List Byte} (hne : sep ≠ [] ∨ rest = []) (h : ∀ b ∈ sep, b ∈ ws)
    (k s : Nat) : tokenizeFrom ws k (some s) (sep ++ rest) =
      { off := s, len := k - s } :: tokenizeFrom ws (k + sep.length) none rest := by
  by_cases hsep : sep = []
  · have hrest : rest = [] := hne.resolve_left (not_not.2 hsep)
    subst hsep hrest
    rfl
  · exact tokenizeFrom_some_ws hsep h k s rest

/-- The tokens of words with their separators, behind any other text, spell the words. -/
theorem tokenizeFrom_words {ws : List Byte} {words : List VWord} {seps : List (List Byte)}
    (hlen : words.length = seps.length) (hwords : ∀ w ∈ words, w ≠ [] ∧ ∀ b ∈ w, b ∉ ws)
    (hseps : Separators ws seps) (pre : List Byte) :
    (tokenizeFrom ws pre.length none (spacedText [] (words.zip seps))).map
      (Token.bytes (pre ++ spacedText [] (words.zip seps))) = words := by
  induction words generalizing seps pre with
  | nil => rfl
  | cons w words ih =>
    cases seps with
    | nil => simp at hlen
    | cons sep seps =>
      obtain ⟨hw, hclean⟩ := hwords w List.mem_cons_self
      obtain ⟨hclose, hsep, hrest⟩ := separators_cons hseps
      have htext : spacedText [] ((w :: words).zip (sep :: seps)) =
          w ++ (sep ++ spacedText [] (words.zip seps)) := by simp [spacedText]
      have hlast : sep ≠ [] ∨ spacedText [] (words.zip seps) = [] :=
        hclose.imp_right fun e => by simp [e, spacedText]
      have ih' := ih (Nat.succ.inj hlen) (fun v hv => hwords v (List.mem_cons_of_mem _ hv)) hrest (pre ++ (w ++ sep))
      rw [htext, tokenizeFrom_none_word hw hclean, tokenizeFrom_some_close hlast hsep, Nat.add_sub_cancel_left,
        List.map_cons, Token.bytes_append]
      exact congrArg (w :: ·) (by simpa only [List.length_append, List.append_assoc, Nat.add_assoc] using ih')

/-- The tokens of a text that R127 (a) allows spell its words. -/
theorem tokenize_spacedText {ws lead : List Byte} {words : List VWord} {seps : List (List Byte)}
    (hlead : ∀ b ∈ lead, b ∈ ws) (hlen : words.length = seps.length)
    (hwords : ∀ w ∈ words, w ≠ [] ∧ ∀ b ∈ w, b ∉ ws) (hseps : Separators ws seps) :
    (tokenize ws (spacedText lead (words.zip seps))).map (Token.bytes (spacedText lead (words.zip seps))) = words := by
  have htext : spacedText lead (words.zip seps) = lead ++ spacedText [] (words.zip seps) := rfl
  rw [htext, tokenize, tokenizeFrom_none_ws hlead, Nat.zero_add]
  exact tokenizeFrom_words hlen hwords hseps lead

/-- With distinct entries the look-up of the words of indices gives the indices back. -/
theorem map_indexOf_map_wordOf {vf : List VWord} (h : vf.Nodup) {g : List Nat} (hg : ∀ v ∈ g, v < vf.length) :
    (g.map (wordOf vf)).map (indexOf vf) = g.map some := by
  rw [List.map_map]
  exact List.map_congr_left fun v hv => indexOf_of_nodup h (wordOf_eq (hg v hv))

/-- DECODE of a text whose tokens are the words of a legal entropy computes that entropy. -/
theorem decodeOutcome_of_words {t : State} {e : List Byte} (hvok : t.vok = true)
    (hl : t.txtLen.toNat ≤ t.params.txtCap) (hnodup : t.vf.Nodup) (hsize : t.vf.length = 2048)
    (he : e.length ∈ entLens)
    (htoks : (tokenize t.params.ws t.text).map (Token.bytes t.text) = (entropyGroups e).map (wordOf t.vf)) :
    decodeOutcome t = .ok e := by
  have hcount : (tokenize t.params.ws t.text).length ∈ wordCounts := by
    rw [← List.length_map (Token.bytes t.text), htoks, List.length_map, entropyGroups_length]
    exact wordCount_mem he
  have hlook : lookUpTokens t.vf t.text 0 (tokenize t.params.ws t.text) = .ok (entropyGroups e) := by
    rw [lookUpTokens_ok, ← map_indexOf_map_wordOf hnodup fun v hv => (mem_entropyGroups_lt hv).trans_eq hsize.symm,
      ← htoks, List.map_map]
    rfl
  have hverify : checksum (reassemble (entropyGroups e)) = embeddedChecksum (entropyGroups e) := by
    rw [reassemble_entropyGroups he, embeddedChecksum_entropyGroups he]
  rw [decodeOutcome_of_known_words hvok hl hcount hlook, verifyIndices_of_match hverify, reassemble_entropyGroups he]

/-- DECODE of a text of the words of a legal entropy, separated by whitespace, computes that entropy. -/
theorem decodeOutcome_of_spacedText {t : State} {e lead : List Byte} {seps : List (List Byte)} (h : Inv t)
    (hvok : t.vok = true) (hl : t.txtLen.toNat ≤ t.params.txtCap) (hnodup : t.vf.Nodup)
    (hclean : ∀ w ∈ t.vf, w ≠ [] ∧ ∀ b ∈ w, b ∉ t.params.ws) (he : e.length ∈ entLens)
    (hlead : ∀ b ∈ lead, b ∈ t.params.ws) (hlen : (entropyGroups e).length = seps.length)
    (hseps : Separators t.params.ws seps)
    (htext : t.text = spacedText lead (((entropyGroups e).map (wordOf t.vf)).zip seps)) :
    decodeOutcome t = .ok e := by
  have hsize : t.vf.length = 2048 := h.vocab_size hvok
  have hwords : ∀ w ∈ (entropyGroups e).map (wordOf t.vf), w ≠ [] ∧ ∀ b ∈ w, b ∉ t.params.ws := by
    intro w hw
    obtain ⟨v, hv, rfl⟩ := List.mem_map.1 hw
    have hvlt : v < t.vf.length := (mem_entropyGroups_lt hv).trans_eq hsize.symm
    exact hclean _ (List.mem_of_getElem? (wordOf_eq hvlt))
  have htoks := tokenize_spacedText hlead ((List.length_map _).trans hlen) hwords hseps
  rw [← htext] at htoks
  exact decodeOutcome_of_words hvok hl hnodup hsize he htoks

/-- The words in the slots after a success of ENCODE are the words of its groups. -/
theorem slotWords_storeMnemonic {s : State} (h : Inv s) (hvok : s.vok = true) {g : List Nat} (hg : g.length ≤ 24) :
    ((List.finRange 24).take g.length).map (storeMnemonic g s).slotWord = g.map (wordOf s.vf) := by
  refine List.ext_getElem (by simpa using hg) fun i hi _ => ?_
  have hlt : i < g.length := hi.trans_le (by simp)
  have hslot := storeMnemonic_slotWord h.mem_wf h.params_wf.2.1 (h.vocab_fits hvok) hg (i := ⟨i, by omega⟩) hlt
  simpa [hlt] using hslot

/-- Settles O28: ENCODE stores the words of the entropy's groups, and DECODE of these words computes the entropy. -/
theorem decodeOfEncodeIsTheEntropy : Obligations.DecodeOfEncodeIsTheEntropy := by
  unfold Obligations.DecodeOfEncodeIsTheEntropy
  intro s t hs ht _ hops _ hopt hvoks hvokt hvf hnodup hclean hl
  have he : s.entropyIn.length ∈ entLens := by rw [entropyIn_length]; exact hl
  have hgl : (entropyGroups s.entropyIn).length ≤ 24 := (entropyGroups_length _).trans_le (wordCount_le he)
  have hcount : (storeMnemonic (entropyGroups s.entropyIn) s).mcount.toNat = (entropyGroups s.entropyIn).length :=
    storeMnemonic_mcount_toNat hgl
  refine ⟨_, (complete_encode hops).trans (congrArg _ (encodeComplete_of_legal hvoks hl)), rfl,
    fun lead seps hlead hlen hseps hfits htext => ?_⟩
  rw [reportSuccess_mcount, hcount] at hlen htext
  have hslots : ((List.finRange 24).take (entropyGroups s.entropyIn).length).map
      (reportSuccess (storeMnemonic (entropyGroups s.entropyIn) s)).slotWord =
        (entropyGroups s.entropyIn).map (wordOf t.vf) := hvf ▸ slotWords_storeMnemonic hs hvoks hgl
  rw [hslots] at htext
  have hout : decodeOutcome t = .ok s.entropyIn :=
    decodeOutcome_of_spacedText ht hvokt hfits (hvf ▸ hnodup) (hvf ▸ hclean) he hlead hlen.symm hseps htext
  have h32 : s.entropyIn.length ≤ 32 := by rw [mem_entLens] at he; omega
  refine ⟨_, complete_of_decode_ok hopt hout, rfl, rfl,
    (storeEntropy_eoutLen_toNat (s := t) h32).trans (entropyIn_length s), fun i hi => ?_⟩
  calc (storeEntropy s.entropyIn t).mem.read (eoutBase + i)
      = s.entropyIn.getD i 0 := storeEntropy_in ht.mem_wf (hi.trans_eq (entropyIn_length s).symm)
    _ = s.mem.read (einBase + i) := Memory.readBytes_getD s.mem einBase _ hi

end Sys2Proof.Machine

/-! PROOFS of family 44_commands: R140, R141 and R144, what each command word does to an idle block; R143, the flags a
completion leaves and the only steps that end an operation; the two joined along a run. -/

namespace Sys2Proof.Machine

/-! The commands, as an idle block takes them. -/

/-- A start issued at an idle block is the start step (R141). -/
theorem issue_idle {s : State} (h : s.busy = false) (c : BitVec 2) : issue c s = start c s := by
  rw [issue, h, if_neg Bool.false_ne_true]

/-- A start, taken or dropped, leaves every element but `OP`, `BUSY` and `DONE` (R47, R141). -/
theorem issue_frame (c : BitVec 2) (s : State) :
    issue c s = { s with op := (issue c s).op, busy := (issue c s).busy, done := (issue c s).done } := by
  cases h : s.busy
  · rw [issue_idle h]; rfl
  · rw [issue, if_pos h]

/-- Settles O6: the word 0 is NOP's, and NOP answers its state. -/
theorem nopHasNoEffect : Obligations.NopHasNoEffect := by
  unfold Obligations.NopHasNoEffect
  exact fun s => ⟨rfl, fun _ => exec_wr_cmd_of_decodeCmd (i := .nop) rfl s⟩

/-- Settles O7: an idle block takes the start, and the words 1 and 2 written to `CMD` are the two commands. -/
theorem startWritesOpBusyAndDone : Obligations.StartWritesOpBusyAndDone := by
  unfold Obligations.StartWritesOpBusyAndDone
  intro s hb
  have hencode : exec .encode s = .next (start 1 s) := congrArg _ (issue_idle hb 1)
  have hdecode : exec .decode s = .next (start 2 s) := congrArg _ (issue_idle hb 2)
  exact ⟨hencode, hdecode, (exec_wr_cmd_of_decodeCmd rfl s).trans hencode,
    (exec_wr_cmd_of_decodeCmd rfl s).trans hdecode⟩

/-- Settles O9: a word other than 1 and 2 starts nothing. -/
theorem reservedCommandsAreIgnored : Obligations.ReservedCommandsAreIgnored := by
  unfold Obligations.ReservedCommandsAreIgnored
  intro s c _ _ h1 h2
  rw [exec_wr_cmd, command_ignored h1 h2, ite_self]

/-- Settles O16: NOP and RD by their one answer, the two starts by the frame of `issue`. -/
theorem commandsAndReadsStoreNothing : Obligations.CommandsAndReadsStoreNothing := by
  unfold Obligations.CommandsAndReadsStoreNothing
  refine fun s t => ⟨fun h => ?_, fun h => ?_, fun h => ?_, fun a h => ?_⟩
  · cases h; rfl
  · cases h; exact issue_frame 1 s
  · cases h; exact issue_frame 2 s
  · cases h; rfl

/-! The completion. -/

/-- The flags with which every completion ends an operation (R143). -/
def Ended (t : State) : Prop := t.busy = false ∧ t.done = true ∧ t.op = 0

/-- Failure or success, ENCODE ends with its report (R111, R152). -/
theorem encodeComplete_ended (s : State) : Ended (encodeComplete s) := by
  unfold encodeComplete
  cases encodeOutcome s with
  | error f => exact ⟨rfl, rfl, rfl⟩
  | ok g => exact ⟨rfl, rfl, rfl⟩

/-- Failure or success, DECODE ends with its report (R125, R152). -/
theorem decodeComplete_ended (s : State) : Ended (decodeComplete s) := by
  unfold decodeComplete
  cases decodeOutcome s with
  | error f => exact ⟨rfl, rfl, rfl⟩
  | ok e => exact ⟨rfl, rfl, rfl⟩

/-- Any completion that answers a state ends the operation: with an `OP` other than 1 and 2 there is none (R143). -/
theorem complete_ended {s t : State} (h : complete s = .next t) : Ended t := by
  unfold complete at h
  split at h
  · cases h; exact encodeComplete_ended s
  · split at h
    · cases h; exact decodeComplete_ended s
    · cases h

/-- The engine leaves an idle block as it is (R143). -/
theorem engineTurn_idle {s : State} (h : s.busy = false) : engineTurn s = .next s := by
  rw [engineTurn, h, if_neg Bool.false_ne_true]

/-- The engine's turn at a busy block is the completion (R143). -/
theorem engineTurn_busy {s : State} (h : s.busy = true) : engineTurn s = complete s := by
  rw [engineTurn, if_pos h]

/-- Settles O44: the engine's turn idle and busy, the two arms of its dispatch, and the flags it ends with. -/
theorem completionEndsTheOperation : Obligations.CompletionEndsTheOperation := by
  unfold Obligations.CompletionEndsTheOperation
  refine fun s => ⟨engineTurn_idle, engineTurn_busy, complete_encode, complete_decode, fun t h => ?_⟩
  obtain ⟨hbusy, hdone, hop⟩ := complete_ended h
  exact ⟨hbusy, hdone, hop, engineTurn_idle hbusy⟩

/-- No host transaction sets `DONE`: a start clears it and no other writes it. -/
theorem HostEffect.done_of_done {s t : State} (e : HostEffect s t) (h : t.done = true) : s.done = true := by
  cases e with
  | started c _ _ => cases h
  | _ => exact h

/-- No host transaction ends an operation (R47). -/
theorem HostEffect.busy_of_busy {s t : State} (e : HostEffect s t) (h : s.busy = true) : t.busy = true := by
  rcases e.of_busy h with rfl | ⟨_, rfl⟩ <;> exact h

/-- The engine writes `DONE` only at a busy block (R143). -/
theorem EngineEffect.done_of_idle {s t : State} (e : EngineEffect s t) (h : s.busy = false) : t.done = s.done := by
  cases e with
  | none => rfl
  | encoded busy _ => rw [h] at busy; cases busy
  | decoded busy _ => rw [h] at busy; cases busy

/-- Settles O43: a host transaction neither ends an operation nor sets `DONE`, the engine sets it only at a busy block,
and a reset leaves it 0. -/
theorem onlyCompletionOrResetEndsAnOperation : Obligations.OnlyCompletionOrResetEndsAnOperation := by
  unfold Obligations.OnlyCompletionOrResetEndsAnOperation
  intro s t h
  obtain ⟨-, ⟨hnh, hnr, engine⟩ | ⟨-, -, _, host, -⟩ | ⟨hr, -, src, _, -, -, rfl⟩⟩ := step_cases h
  · refine ⟨fun _ _ => .inr hnh, fun hds hdt => ⟨?_, hnh, hnr⟩⟩
    by_contra hb
    have hkept : t.done = s.done := engine.done_of_idle (Bool.eq_false_iff.2 hb)
    rw [hkept, hds] at hdt
    cases hdt
  · refine ⟨fun hbs hbt => ?_, fun hds hdt => ?_⟩
    · rw [host.busy_of_busy hbs] at hbt; cases hbt
    · have hset : s.done = true := host.done_of_done hdt
      rw [hds] at hset; cases hset
  · refine ⟨fun _ _ => .inl hr, fun _ hdt => ?_⟩
    rw [resetStep_eq] at hdt; cases hdt

/-! Commands and completions along a run. -/

/-- The record by which the host issues an instruction runs that instruction (R60, R62). -/
theorem step_record {s : State} {i : Instr} {rest : List Event} (hw : s.ConfigWf)
    (hp : s.pending = .host (encode i).asRecord :: rest) : step s = exec i { s with pending := rest } := by
  have hd : decode (encode i) = .ok i := decode_encode i
  cases hc : encode i with
  | cmd w => rw [hc] at hp hd; exact (commandWordRunsItsInstruction s w i hd).2 rest hw hp
  | host r => rw [hc] at hp hd; exact stepRunsTheDecodedTransaction s r rest i hw hp hd

/-- A pending turn of the engine is taken (R143). -/
theorem step_engine {s : State} {rest : List Event} (hw : s.ConfigWf) (hp : s.pending = .engine :: rest) :
    step s = engineTurn { s with pending := rest } := by
  rw [step_of_wf hw, State.popped, hp]
  rfl

/-- With nothing pending the engine has its turn (log 2). -/
theorem step_nothing_pending {s : State} (hw : s.ConfigWf) (hp : s.pending = []) : step s = engineTurn s := by
  rw [step_of_wf hw, hp]

/-- In a state of the invariant an enabled completion has an operation to complete (R30 (a), R143). -/
theorem exists_complete {s : State} (h : Inv s) (hb : s.busy = true) : ∃ t, complete s = .next t := by
  rcases h.busy_iff_op.1 hb with hop | hop
  · exact ⟨_, complete_encode hop⟩
  · exact ⟨_, complete_decode hop⟩

/-- An instruction pending at a busy block is taken off the schedule and the block stays busy (R47). -/
theorem exists_step_record_busy {s : State} {i : Instr} {rest : List Event} (hw : s.ConfigWf) (hb : s.busy = true)
    (hp : s.pending = .host (encode i).asRecord :: rest) :
    ∃ t, step s = .next t ∧ t.busy = true ∧ t.pending = rest := by
  obtain ⟨t, ht, host⟩ := exec_effect i { s with pending := rest }
  exact ⟨t, (step_record hw hp).trans ht, host.busy_of_busy hb, host.pending⟩

/-- Settles O45, by induction on the pending instructions: each leaves the block busy, and after the last the engine
has its turn. -/
theorem enabledCompletionIsTaken : Obligations.EnabledCompletionIsTaken := by
  unfold Obligations.EnabledCompletionIsTaken
  intro s is hinv hb hp
  induction is generalizing s with
  | nil =>
    obtain ⟨t, ht⟩ := exists_complete hinv hb
    have hstep : step s = .next t := by rw [step_nothing_pending hinv.configWf hp, engineTurn_busy hb, ht]
    exact ⟨t, run_next 0 hstep, complete_ended ht⟩
  | cons i is ih =>
    obtain ⟨s', hstep, hb', hp'⟩ := exists_step_record_busy hinv.configWf hb hp
    rw [List.length_cons, run_next _ hstep]
    exact ih s' (inv_step hinv hstep) hb' hp'

/-- A step that leaves a busy block with the engine's turn next is followed by the completion (R143). -/
theorem run_step_engine {s u t : State} {rest : List Event} (hstep : step s = .next u) (hw : u.ConfigWf)
    (hb : u.busy = true) (hp : u.pending = .engine :: rest) (hc : complete { u with pending := rest } = .next t) :
    Sys2Proof.core.run 2 s = .next t := by
  have hturn : engineTurn { u with pending := rest } = complete { u with pending := rest } := engineTurn_busy hb
  have hengine : step u = .next t := (step_engine hw hp).trans (hturn.trans hc)
  exact (run_next 1 hstep).trans (run_next 0 hengine)

/-- Settles O46: the record runs its command, an idle block takes the start (O7), and the engine completes it. -/
theorem commandThenEngineTurnCompletes : Obligations.CommandThenEngineTurnCompletes := by
  unfold Obligations.CommandThenEngineTurnCompletes
  intro s rest hw hb
  obtain ⟨hencode, hdecode, -, -⟩ := startWritesOpBusyAndDone { s with pending := .engine :: rest } hb
  exact ⟨fun hp => run_step_engine ((step_record hw hp).trans hencode) hw rfl rfl (complete_encode rfl),
    fun hp => run_step_engine ((step_record hw hp).trans hdecode) hw rfl rfl (complete_decode rfl)⟩

end Sys2Proof.Machine

/-! PROOFS of family 60_exceptions: R152, the failure step; R151, the exact condition of every outcome. -/

namespace Sys2Proof.Machine

/-! The failure step (R152): which bytes it clears, and that every other byte reads as before. -/

theorem raise_encode_outside (f : Failure) {s : State} (h : s.op = 1) {x : Nat} (hx : ¬ (0x0100 ≤ x ∧ x < 0x0400)) :
    (raise f s).mem.read x = s.mem.read x := by
  rw [raise_encode f h, reportFailure_mem, clearMnemonic_mem, Memory.read_clear,
    if_neg (by unfold slotWindow mnCap; omega)]

theorem raise_decode_outside (f : Failure) {s : State} (h : s.op = 2) {x : Nat} (hx : ¬ (0x0040 ≤ x ∧ x < 0x0060)) :
    (raise f s).mem.read x = s.mem.read x := by
  rw [raise_decode f h, reportFailure_mem, clearEntropy_mem, Memory.read_clear,
    if_neg (by unfold eoutBase entCap; omega)]

/-- A failure of DECODE leaves every byte of `EOUT` 0. -/
theorem raise_decode_eout (f : Failure) {s : State} (h : s.op = 2) {i : Nat} (hi : i < 32) :
    (raise f s).mem.read (eoutBase + i) = 0 := by
  rw [raise_decode f h, reportFailure_mem, clearEntropy_mem, Memory.read_clear, if_pos (by unfold entCap; omega)]

/-- Settles O29: each command's outputs are cleared inside its own window, and the report does not depend on `OP`. -/
theorem failureStepClearsAndReports : Obligations.FailureStepClearsAndReports := by
  unfold Obligations.FailureStepClearsAndReports
  refine fun f s => ⟨fun h => ?_, fun h => ?_, rfl, rfl, rfl, rfl, rfl, rfl, rfl, rfl, raise_einLen f s,
    raise_txtLen f s, (raise_completion f s).vocabulary⟩
  · refine ⟨?_, fun i => ?_, ?_, fun x hx => raise_encode_outside f h hx⟩ <;> rw [raise_encode f h]
    · rfl
    · exact ⟨replicate_get 0 i, replicate_get 0 i, fun j hj => read_clear_slots s.mem i.isLt hj⟩
    · rfl
  · refine ⟨?_, fun i hi => raise_decode_eout f h hi, ?_, ?_, ?_, fun x hx => raise_decode_outside f h hx⟩ <;>
      rw [raise_decode f h] <;> rfl

/-! The conditions of the outcomes (R151). -/

/-- The look-up of all tokens fails exactly when one of them is no entry (R122). -/
theorem exists_lookUpTokens_error_iff {vf : List VWord} {text : List Byte} {i : Nat} {toks : List Token} :
    (∃ f, lookUpTokens vf text i toks = .error f) ↔ ∃ tok ∈ toks, indexOf vf (tok.bytes text) = none := by
  constructor
  · rintro ⟨f, hfail⟩
    obtain ⟨k, tok, htok, hmiss, -, -⟩ := lookUpTokens_error.1 hfail
    exact ⟨tok, List.mem_of_getElem? htok, hmiss⟩
  · rintro ⟨tok, htok, hmiss⟩
    cases hlook : lookUpTokens vf text i toks with
    | error f => exact ⟨f, rfl⟩
    | ok idx =>
      have hmem := List.mem_map_of_mem (f := fun t : Token => indexOf vf (t.bytes text)) htok
      rw [lookUpTokens_ok.1 hlook, hmiss] at hmem
      simp at hmem

theorem lookUpTokens_error_kind {vf : List VWord} {text : List Byte} {i : Nat} {toks : List Token} {f : Failure}
    (h : lookUpTokens vf text i toks = .error f) : f.kind = .unknownWord := by
  obtain ⟨k, tok, -, -, -, rfl⟩ := lookUpTokens_error.1 h
  rfl

theorem resetOf_err (c : Config) : (State.resetOf c).err = if c.vocabSrc.length = 2048 then 0 else 1 := rfl

/-- Settles O30: each way an operation completes answers one code, under a condition that excludes all the others. -/
theorem everyOutcomeHasItsCondition : Obligations.EveryOutcomeHasItsCondition := by
  unfold Obligations.EveryOutcomeHasItsCondition
  refine ⟨fun c => ?_, fun s t _ hop h => ?_, fun s t _ hop h => ?_⟩
  · rw [resetOf_err]
    by_cases hlen : c.vocabSrc.length = 2048 <;> simp [hlen]
  · obtain rfl := Host.Outcome.next.inj ((complete_encode hop).symm.trans h)
    have hlens : [16, 20, 24, 28, 32] = entLens := rfl
    rw [hlens]
    rcases encodeComplete_cases s with ⟨hvok, e⟩ | ⟨hvok, hlen, e⟩ | ⟨hvok, hlen, e⟩ <;> rw [e]
    · simp [hvok, ErrKind.code]
    · simp [hvok, hlen, ErrKind.code]
    · simp [hvok, hlen]
  · obtain rfl := Host.Outcome.next.inj ((complete_decode hop).symm.trans h)
    intro toks read counted
    have hcounts : [12, 15, 18, 21, 24] = wordCounts := rfl
    -- The conditions on single tokens become conditions on the one result of the whole look-up.
    simp only [counted, read, toks, hcounts, ← lookUpTokens_ok (i := 0), ← exists_lookUpTokens_error_iff (i := 0)]
    rcases decodeComplete_cases s with ⟨hvok, e⟩ | ⟨hvok, htxt, e⟩ | ⟨hvok, htxt, hcount, e⟩ |
      ⟨hvok, htxt, hcount, f, hlook, e⟩ | ⟨hvok, htxt, hcount, idx, hlook, ⟨hsum, e⟩ | ⟨hsum, e⟩⟩ <;> rw [e]
    · simp [hvok, ErrKind.code]
    · simp [hvok, htxt, htxt.not_ge, ErrKind.code]
    · simp [hvok, htxt, htxt.not_gt, hcount, ErrKind.code]
    · simp [hvok, htxt, htxt.not_gt, hcount, hlook, lookUpTokens_error_kind hlook, ErrKind.code]
    · simp [hvok, htxt, htxt.not_gt, hcount, hlook, hsum, ErrKind.code]
    · simp [hvok, htxt, htxt.not_gt, hcount, hlook, hsum]

end Sys2Proof.Machine

/-! PROOFS of family other: the invariant at every reset and along every step; R171, a reset of a busy block; 93 section
1, the only refusals in a state of the invariant; the inputs at a turn of the engine; R6 and R60, the refusals. -/

namespace Sys2Proof.Machine

/-! The invariant. -/

/-- Settles O39: the turn of the engine, of the host and of the reset input each keep the invariant. -/
theorem stepKeepsTheInvariant : Obligations.StepKeepsTheInvariant := by
  unfold Obligations.StepKeepsTheInvariant
  intro s t h e
  exact inv_step h e

/-- Settles O38: the model's own reset state is that of the reference configuration, which is well-formed. -/
theorem resetStatesSatisfyTheInvariant : Obligations.ResetStatesSatisfyTheInvariant := by
  unfold Obligations.ResetStatesSatisfyTheInvariant
  refine ⟨fun c hc => inv_resetOf hc, ?_⟩
  rw [reset_eq_resetOf]
  exact inv_resetOf reference_wf

/-! A reset of a busy block (R171). -/

/-- At an idle block a pending turn of the engine is taken off the schedule, and that is all (R143). -/
theorem step_engine_idle {s : State} {rest : List Event} (hw : s.ConfigWf) (hb : s.busy = false)
    (hp : s.pending = .engine :: rest) : step s = .next { s with pending := rest } :=
  (step_engine hw hp).trans (engineTurn_idle hb)

/-- Settles O37: the reset leaves the block idle, and the engine's turn leaves an idle block as it is. -/
theorem resetAbandonsTheOperation : Obligations.ResetAbandonsTheOperation := by
  unfold Obligations.ResetAbandonsTheOperation
  intro s src rest hw hf _ hp
  rw [run_next 1 (step_reset hw hf hp)]
  exact run_next 0 (step_engine_idle ⟨hw.1, resetOf_srcFits hf⟩ rfl rfl)

/-! The engine and the inputs. -/

/-- The engine's turn leaves the host's inputs, whether it completes an operation or does nothing (R16, R17, R20, R24). -/
theorem EngineEffect.sameInputs {s t : State} (e : EngineEffect s t) (hw : s.params.wordMax ≤ 31) : SameInputs s t := by
  rcases e.completion hw with rfl | c
  · exact sameInputs_of_read rfl rfl fun _ _ => rfl
  · exact c.inputs

/-- Settles O42: a step that is neither the host's nor a reset is a turn of the engine. -/
theorem engineNeverWritesAnInput : Obligations.EngineNeverWritesAnInput := by
  unfold Obligations.EngineNeverWritesAnInput
  intro s t h hnh hnr
  obtain ⟨⟨hw, -⟩, ⟨-, -, engine⟩ | ⟨host, -⟩ | ⟨reset, -⟩⟩ := step_cases h
  · exact ⟨engine.sameInputs hw.2.1, engine.sameVocabulary hw.2.1⟩
  · exact absurd host hnh
  · exact absurd reset hnr

/-! Refusals. -/

/-- A pending record that is no transaction refuses the step (R60, log 9). -/
theorem step_of_decodeHost_error {s : State} {r : BitVec 49} {rest : List Event} {e : DecodeError} (hw : s.ConfigWf)
    (hp : s.pending = .host r :: rest) (hd : decodeHost r = .error e) : step s = .refused .malformedRecord := by
  rw [step_of_wf hw, hp]
  simp only [turn, hostTurn, hd]

/-- A pending reset that presents a word that is too long refuses the step (R6, log 10). -/
theorem step_reset_of_not_fits {s : State} {src : List VWord} {rest : List Event} (hp : s.pending = .reset src :: rest)
    (hf : ¬ s.params.Fits src) : step s = .refused .illFormedConfiguration := by
  by_cases hw : s.ConfigWf
  · rw [step_of_wf hw, hp]
    exact if_neg hf
  · exact step_of_not_wf hw

/-- A word that is too long for its slot does not fit (R6 (a)). -/
theorem not_fits_of_mem {p : Params} {src : List VWord} {w : VWord} (hmem : w ∈ src) (hlen : p.wordMax < w.length) :
    ¬ p.Fits src :=
  fun hf => (hf w hmem).not_gt hlen

/-- Only a well-formed configuration has a reachable state (R6). -/
theorem Reachable.wf {c : Config} {s : State} (h : Reachable c s) : c.Wf := by
  induction h with
  | reset hc _ => exact hc
  | step _ _ ih => exact ih

/-- Settles O56: `w` = 0 makes the record a read, and its data field is not 0. -/
theorem malformedRecordsAreRefused : Obligations.MalformedRecordsAreRefused := by
  unfold Obligations.MalformedRecordsAreRefused
  intro s a d rest hw hd hp
  have herr : decodeHost (record 0#1 a d) = .error .readDataNotZero := by
    rw [decodeHost_record, if_neg (by decide), if_neg hd]
  exact step_of_decodeHost_error hw hp herr

/-- Settles O55: conditions (a) to (d) of R6 are those of `ConfigWf`, and a reset is refused by (a) alone. -/
theorem illFormedConfigurationsAreRefused : Obligations.IllFormedConfigurationsAreRefused := by
  unfold Obligations.IllFormedConfigurationsAreRefused
  refine ⟨fun c w hmem hlen => ?_, fun s => ⟨fun hsrc => ?_, fun hparams => ?_, fun src rest w hp hmem hlen => ?_⟩⟩
  · have hf : ¬ c.params.Fits c.vocabSrc := not_fits_of_mem hmem hlen
    exact ⟨fun _ => step_of_not_wf fun hw => hf (of_decide_eq_true hw.2), fun _ hreach => hf hreach.wf.2⟩
  · exact step_of_not_wf fun hw => Bool.false_ne_true (hsrc.symm.trans hw.2)
  · exact step_of_not_wf fun hw => hparams hw.1
  · exact step_reset_of_not_fits hp (not_fits_of_mem hmem hlen)

/-! Progress in the states of the invariant (93 section 1). -/

/-- In a state of the invariant the engine's turn never faults (R30 (a), log 11). -/
theorem exists_engineTurn {s : State} (h : Inv s) : ∃ t, engineTurn s = .next t := by
  cases hb : s.busy
  · exact ⟨s, engineTurn_idle hb⟩
  · rw [engineTurn_busy hb]
    exact exists_complete h hb

/-- A record is a transaction, or a read with data (R60). -/
theorem decodeHost_ok_or_error (r : BitVec 49) :
    (∃ i, decodeHost r = .ok i) ∨ decodeHost r = .error .readDataNotZero := by
  rcases decodeHost_cases r with ⟨_, _, -, hd⟩ | ⟨_, -, hd⟩ | hd
  · exact .inl ⟨_, hd⟩
  · exact .inl ⟨_, hd⟩
  · exact .inr hd

/-- Settles O41, by the next event: the engine's turn and every transaction answer a state, a record that is no
transaction is refused, and so is a reset with a list that does not fit. -/
theorem invariantStatesNeverGetStuck : Obligations.InvariantStatesNeverGetStuck := by
  unfold Obligations.InvariantStatesNeverGetStuck
  intro s h
  have hw : s.ConfigWf := h.configWf
  cases hp : s.pending with
  | nil =>
    rw [step_nothing_pending hw hp]
    exact .inl (exists_engineTurn h)
  | cons e rest =>
    cases e with
    | host r =>
      rcases decodeHost_ok_or_error r with ⟨i, hd⟩ | hd
      · obtain ⟨t, hexec, -⟩ := exec_effect i { s with pending := rest }
        exact .inl ⟨t, (stepRunsTheDecodedTransaction s r rest i hw hp hd).trans hexec⟩
      · exact .inr (.inl ⟨r, rest, rfl, hd, step_of_decodeHost_error hw hp hd⟩)
    | engine =>
      rw [step_engine hw hp]
      exact .inl (exists_engineTurn (inv_port h s.rdata rest))
    | reset src =>
      by_cases hf : s.params.Fits src
      · exact .inl ⟨_, step_reset hw hf hp⟩
      · exact .inr (.inr ⟨src, rest, rfl, hf, step_reset_of_not_fits hp hf⟩)

end Sys2Proof.Machine
